-- ==== Sys2Proof/Word.lean ====
section
/-! DEFINITION. The word types of the host bus (00_scope.md R6, 20_memory.md R41). -/

namespace Sys2Proof

/-- A host bus word, 32 bits (R41). -/
abbrev Word := BitVec 32

/-- A byte, one lane of a bus word (R48). -/
abbrev Byte := BitVec 8

/-- A host byte address, 20 bits (R41). -/
abbrev HostAddr := BitVec 20

end Sys2Proof
end

