-- ==== Sys2Proof/Config.lean ====
section
/-! DEFINITION. What is fixed for every MBC (R5), what is fixed for one MBC (R7), and the free values of
93_implementation_defined.md. A free value is an opaque constant with no body, so that nothing can be proved of it. -/

namespace Sys2Proof.Config

/-- RADIX, the radix of the digit sequence of a block value (R5). -/
abbrev radix : Nat := 1626

/-- BANK_SIZE, the words per vocabulary bank (R5). -/
abbrev bankSize : Nat := 1626

/-- VOCAB_SIZE, the number of word indices (R5; 90_conflicts.md C2). -/
abbrev vocabSize : Nat := 3252

/-- BLOCK_MAX, the most bytes in a block (R5). -/
abbrev blockMax : Nat := 4

/-- GROUP_MAX, the most indices in an index tuple (R5). -/
abbrev groupMax : Nat := 3

/-- DISAMBIG_OFFSET, added to the final digit of a 3-byte block (R5). -/
abbrev disambigOffset : Nat := 1626

/-- VAL_W, the width of VAL (R6). -/
abbrev valWidth : Nat := 64

/-- MAX_DIGITS, the number of cells of DIGIT_BUF (R6). -/
abbrev maxDigits : Nat := 64

/-- The parameter of one MBC (R7): BUF_BYTES is a multiple of 4 from 4 to 65532, so GROUP_ENTRIES = BUF_BYTES / 4 is a
number from 1 to 16383, held less one. -/
structure Params where
  /-- GROUP_ENTRIES less one. -/
  groupsLessOne : Fin 16383
deriving DecidableEq, Repr

/-- GROUP_ENTRIES (R45). -/
def Params.groupEntries (p : Params) : Nat := p.groupsLessOne.val + 1

/-- BUF_BYTES (R7). -/
def Params.bufBytes (p : Params) : Nat := 4 * p.groupEntries

/-- The reference value, BUF_BYTES = 1024 (R7). -/
def Params.reference : Params := ⟨255⟩

/-- The byte that free draw `draw` reads at a buffer address nothing has written (R47, U1).
DESIGN CHOICE, safe: see notes/assumptions/4.md. -/
opaque freeByte (draw addr : Nat) : Byte

/-- The word that free draw `draw` gives to a host read that returns UNSPEC: while BUSY = 1 (R129, U2) or while `rst` is
asserted (R124, U3). DESIGN CHOICE, safe: see notes/assumptions/5.md. -/
opaque freeRead (draw : Nat) : Word

/-- What free draw `draw` leaves in a cell that becomes UNSPEC (R100, R126; U4, U5): `some v` for any value, `none` for the
old content. DESIGN CHOICE, safe: see notes/assumptions/8.md. -/
opaque freeCell (draw addr : Nat) : Option Word

/-- How many host transactions come between acceptance number `draw` and its completion step (R103, U6).
DESIGN CHOICE, safe: see notes/assumptions/2.md. -/
opaque latency (draw : Nat) : Nat

end Sys2Proof.Config
end

