-- ==== Sys2Proof/Machine/Converter.lean ====
section
/-! DEFINITION. The Digit Converter's two functions (40_digit_converter.md R68, R70), on natural numbers, exact (R72). -/

namespace Sys2Proof.Machine

/-- `toBase` with a bound on the number of digits; every bound that is at least the number of digits gives the same. -/
def toBaseWithin (b : Nat) : Nat → Nat → List Nat
  | 0, _ => []
  | fuel + 1, n => if n = 0 then [] else toBaseWithin b fuel (n / b) ++ [n % b]

/-- The big-endian digits of `n` in radix `b`, no leading zero, `[]` for 0 (R68). For b of 2 or more, a number has no more
digits than it has bits. -/
def toBase (b n : Nat) : List Nat := toBaseWithin b (n.log2 + 1) n

/-- The number a big-endian digit sequence represents (R70). -/
def fromBase (b : Nat) (ds : List Nat) : Nat := ds.foldl (fun v d => v * b + d) 0

end Sys2Proof.Machine
end

