-- ==== Sys2Proof/Syntax.lean ====
section
/-! DEFINITION. The commands of the MBC, one constructor per row of spec/opcode_table.json (30_encoding.md R59). -/

namespace Sys2Proof

/-- A command word's meaning. A command has no operand field: every operand stands in a fixed register or buffer (R58).
The two reserved classes keep their free bits, so that no bit of a word is lost. -/
inductive Instr
  /-- 0x0, NOP (R105). -/
  | nop
  /-- 0x1, TOBASE (R74). -/
  | tobase
  /-- 0x2, FROMBASE (R75). -/
  | frombase
  /-- 0x3, ENCBLK (R86). -/
  | encblk
  /-- 0x4, DECBLK (R87). -/
  | decblk
  /-- 0x5, XLATE (R94). -/
  | xlate
  /-- 0x6, ENCSEQ (R98). -/
  | encseq
  /-- 0x7, DECSEQ (R99). -/
  | decseq
  /-- BAD_OP, a reserved opcode: bits [31:4] are 0 and OP is 8 to 15 (R59, R106). -/
  | badOpReservedOpcode (op : BitVec 4)
  /-- BAD_OP, reserved bits set: bits [31:4] are not all 0, OP is any (R59, R106). -/
  | badOpReservedBits (mbz : BitVec 28) (op : BitVec 4)
deriving DecidableEq, Repr

end Sys2Proof
end

