-- ==== Sys2Proof/Machine/State.lean ====
section
/-! DEFINITION. The whole state of the MBC (10_state.md R40), as plain data, and its value after reset (R124). -/

namespace Sys2Proof.Machine

/-- The error kinds, STATUS.KIND (R109). -/
inductive Kind
  /-- 0: the command succeeded. -/
  | none
  /-- 1: the source's InvalidArgument. -/
  | invalidArgument
  /-- 2: the source's UnrecognizedWord. -/
  | unrecognizedWord
  /-- 3: the source's MalformedLayout. -/
  | malformedLayout
deriving DecidableEq, Repr

/-- The error details, STATUS.DETAIL (R110). Codes 12 to 15 are never produced (V5), so they are no constructors. -/
inductive Detail
  /-- 0: no error. -/
  | none
  /-- 1: reserved opcode, or CMD[31:4] not 0. -/
  | badOp
  /-- 2: BASE below 2. -/
  | baseRange
  /-- 3: a digit not below its radix. -/
  | digitRange
  /-- 4: NDIG above 64. -/
  | digitCount
  /-- 5: a value too large for its result. -/
  | valueOverflow
  /-- 6: block length 0 or above 4. -/
  | blockLen
  /-- 7: group length 0 (or above 3, which no field can hold). -/
  | groupLen
  /-- 8: XLATE index 3252 or above. -/
  | indexRange
  /-- 9: SEQ_LEN above BUF_BYTES, or GRP_CNT above GROUP_ENTRIES. -/
  | seqRange
  /-- 10: a used slot with RECOG = 0. -/
  | unrecognized
  /-- 11: a bank-B index outside the disambiguator position. -/
  | bankBPosition
deriving DecidableEq, Repr

/-- What an IDX_IN register stores: IDX, bits [11:0], and RECOG, bit [31] (R30). -/
structure Slot where
  idx : BitVec 12
  recog : Bool
deriving DecidableEq, Repr

/-- The registers of the register page that hold state (R19 to R38), field by field. ID and PARAM are constants
(R20, R21), and reserved bits hold nothing (R18). -/
structure Regs where
  /-- CTRL.IE (R22). -/
  ie : Bool
  /-- CMD (R23). -/
  cmd : Word
  /-- STATUS.BUSY (R24). -/
  busy : Bool
  /-- STATUS.DONE (R24). -/
  done : Bool
  /-- STATUS.OVR (R24). -/
  ovr : Bool
  /-- STATUS.ERR (R24). -/
  err : Bool
  /-- STATUS.KIND (R24, R109). -/
  kind : Kind
  /-- STATUS.DETAIL (R24, R110). -/
  detail : Detail
  /-- ERR_POS.POS (R25). -/
  errPos : BitVec 16
  /-- ERR_POS.SLOT (R25). -/
  errSlot : BitVec 2
  /-- BLK_IN (R26). -/
  blkIn : Word
  /-- BLK_LEN.LEN (R27). -/
  blkLen : BitVec 3
  /-- BLK_OUT (R28). -/
  blkOut : Word
  /-- BLK_OUT_LEN.LEN (R29). -/
  blkOutLen : BitVec 3
  /-- IDX_IN0 (R30). -/
  idxIn0 : Slot
  /-- IDX_IN1 (R30). -/
  idxIn1 : Slot
  /-- IDX_IN2 (R30). -/
  idxIn2 : Slot
  /-- IDX_IN_CNT.CNT (R31). -/
  idxInCnt : BitVec 2
  /-- IDX_OUT0 (R32). -/
  idxOut0 : Word
  /-- IDX_OUT1 (R32). -/
  idxOut1 : Word
  /-- IDX_OUT2 (R32). -/
  idxOut2 : Word
  /-- IDX_OUT_CNT.CNT (R33). -/
  idxOutCnt : BitVec 2
  /-- BASE.BASE (R34). -/
  base : BitVec 16
  /-- VAL_LO (R35). -/
  valLo : Word
  /-- VAL_HI (R35). -/
  valHi : Word
  /-- NDIG.N (R36). -/
  ndig : BitVec 7
  /-- SEQ_LEN.N (R37). -/
  seqLen : BitVec 16
  /-- GRP_CNT.G (R38). -/
  grpCnt : BitVec 16
deriving DecidableEq, Repr

/-- The reset value of every register (R19, R124). -/
def Regs.reset : Regs where
  ie := false
  cmd := 0#32
  busy := false
  done := false
  ovr := false
  err := false
  kind := .none
  detail := .none
  errPos := 0#16
  errSlot := 0#2
  blkIn := 0#32
  blkLen := 0#3
  blkOut := 0#32
  blkOutLen := 0#3
  idxIn0 := ⟨0#12, false⟩
  idxIn1 := ⟨0#12, false⟩
  idxIn2 := ⟨0#12, false⟩
  idxInCnt := 0#2
  idxOut0 := 0#32
  idxOut1 := 0#32
  idxOut2 := 0#32
  idxOutCnt := 0#2
  base := 0x065A#16
  valLo := 0#32
  valHi := 0#32
  ndig := 0#7
  seqLen := 0#16
  grpCnt := 0#16

/-- The buffers DIGIT_BUF, BYTE_BUF and GROUP_BUF: the written bytes, by host byte address, addresses strictly rising.
A byte that is not listed is *unwritten* (R47): it holds no value. -/
abbrev Memory := List Host.Cell

/-- What a command may read: the registers and the buffers (R39, R51). -/
structure Snapshot where
  regs : Regs
  mem : Memory
deriving DecidableEq, Repr

/-- PENDING when a command is in progress (R39). -/
structure Pending where
  /-- The CMD word of the command. -/
  word : Word
  /-- The whole state at acceptance. -/
  snapshot : Snapshot
  /-- The model's own: how many host transactions come before the completion step (R103, U6). A free value.
  DESIGN CHOICE, safe: see notes/assumptions/2.md. -/
  delay : Nat
deriving DecidableEq, Repr

/-- What the world outside does to the MBC: a statement of a host script (R66, R67) over addresses, or an edge of the
`rst` port (R15, R124). The other statements of R67 expand into these (Machine/Script.lean). -/
inductive HostAction
  /-- `rd NAME`: HostRead(a); the script calls the value `r`. -/
  | rd (a : HostAddr)
  /-- `wr NAME, v`: HostWrite(a, v). -/
  | wr (a : HostAddr) (v : Word)
  /-- `wr NAME, r`: HostWrite(a, r). -/
  | wrR (a : HostAddr)
  /-- `expect NAME, v`: HostRead(a), compared with v. -/
  | expect (a : HostAddr) (v : Word)
  /-- `wait`: `rd STATUS` repeated while `r[0] = 1`. -/
  | wait
  /-- The `rst` port takes this level. -/
  | rst (level : Bool)
deriving DecidableEq, Repr

/-- The complete state (R40), and what stands for the agents outside (R14). -/
structure State where
  /-- The register page (R19). -/
  regs : Regs
  /-- DIGIT_BUF, BYTE_BUF and GROUP_BUF (R44 to R47). -/
  mem : Memory
  /-- PENDING (R39). -/
  pending : Option Pending
  /-- The parameter BUF_BYTES of this MBC (R7). No step changes it. -/
  params : Config.Params
  /-- The level of the `rst` port (R15). -/
  rst : Bool
  /-- The model's own: what the host and the `rst` port do from here on, in order (R41). -/
  script : List HostAction
  /-- The host register port's read data, which a script calls `r` (R15, R66). -/
  r : Word
  /-- The model's own: how many `expect` statements did not hold (R66). -/
  checksFailed : Nat
  /-- The model's own: the number of the next free draw (R11, UNSPEC). -/
  draws : Nat
deriving DecidableEq, Repr

/-- The MBC has no fault: an error is a command outcome (R113), no host transaction faults (R116), and no state is
without a next step (93_implementation_defined.md, `stuck`). So nothing raises a fault, and the type is empty.
DEDUCED, safe: notes/assumptions/12.md. -/
inductive Fault
deriving DecidableEq, Repr

/-- Why the model would not run a command. -/
inductive Refusal
  /-- The command of this mnemonic has no meaning in the model. No arm of `exec` raises it; it would be safe. -/
  | notModelled (mnemonic : String)
deriving DecidableEq, Repr

/-- The MBC right after power-on and hardware reset (R124; DEDUCED, notes/assumptions/10.md): registers at their reset
values, PENDING none, every buffer cell unwritten (R47), BUF_BYTES at its reference value (R7; notes/assumptions/1.md),
`rst` released. The host has nothing to do yet, and the model's own fields are 0 (DESIGN CHOICE, unsafe:
notes/assumptions/6.md and 7.md). -/
def State.reset : State where
  regs := Regs.reset
  mem := []
  pending := none
  params := Config.Params.reference
  rst := false
  script := []
  r := 0#32
  checksFailed := 0
  draws := 0

end Sys2Proof.Machine
end

