-- ==== Sys2Proof/Machine/Flags.lean ====
section
/-! DEFINITION. The status side of the MBC: codes of the error kinds and details (60_exceptions.md R109, R110), the words
of CTRL, STATUS and ERR_POS (10_state.md R22, R24, R25), the W1C bits, and `irq` (R117). -/

namespace Sys2Proof.Machine

/-- The code of a kind in STATUS.KIND (R109). -/
def Kind.code : Kind → Nat
  | .none => 0
  | .invalidArgument => 1
  | .unrecognizedWord => 2
  | .malformedLayout => 3

/-- The code of a detail in STATUS.DETAIL (R110). -/
def Detail.code : Detail → Nat
  | .none => 0
  | .badOp => 1
  | .baseRange => 2
  | .digitRange => 3
  | .digitCount => 4
  | .valueOverflow => 5
  | .blockLen => 6
  | .groupLen => 7
  | .indexRange => 8
  | .seqRange => 9
  | .unrecognized => 10
  | .bankBPosition => 11

/-- "Each detail has one kind" (R110). -/
def Detail.kind : Detail → Kind
  | .none => .none
  | .unrecognized => .unrecognizedWord
  | .bankBPosition => .malformedLayout
  | .badOp => .invalidArgument
  | .baseRange => .invalidArgument
  | .digitRange => .invalidArgument
  | .digitCount => .invalidArgument
  | .valueOverflow => .invalidArgument
  | .blockLen => .invalidArgument
  | .groupLen => .invalidArgument
  | .indexRange => .invalidArgument
  | .seqRange => .invalidArgument

/-- The word CTRL reads: IE in bit 0; SRST reads 0 (R22). -/
def Regs.ctrlWord (g : Regs) : Word := BitVec.ofNat 32 g.ie.toNat

/-- The word STATUS reads (R24). -/
def Regs.statusWord (g : Regs) : Word :=
  BitVec.ofNat 32
    (g.busy.toNat + g.done.toNat * 2 ^ 1 + g.ovr.toNat * 2 ^ 2 + g.err.toNat * 2 ^ 3
      + g.kind.code * 2 ^ 4 + g.detail.code * 2 ^ 8)

/-- The word ERR_POS reads (R25). -/
def Regs.errPosWord (g : Regs) : Word := BitVec.ofNat 32 (g.errPos.toNat + g.errSlot.toNat * 2 ^ 16)

/-- A write of `d` to STATUS: a 1 clears DONE or OVR, and every other field is read-only (R18, R24). -/
def Regs.writeStatus (g : Regs) (d : Word) : Regs :=
  { g with done := g.done && !d.getLsbD 1, ovr := g.ovr && !d.getLsbD 2 }

/-- A write of `d` to CTRL without SRST: IE takes bit 0 (R22). -/
def Regs.writeCtrl (g : Regs) (d : Word) : Regs := { g with ie := d.getLsbD 0 }

/-- The error record cleared (R102, R111). -/
def Regs.clearError (g : Regs) : Regs :=
  { g with err := false, kind := .none, detail := .none, errPos := 0#16, errSlot := 0#2 }

/-- `irq = CTRL.IE AND STATUS.DONE` (R117). -/
def State.irq (s : State) : Bool := s.regs.ie && s.regs.done

end Sys2Proof.Machine
end

