-- ==== Sys2Proof/Machine/Codec.lean ====
section
/-! DEFINITION. The Block Codec's functions (41_block_codec.md R76 to R83), the word-bank address (42_word_bank_lookup.md
R89, R90) and the partition of a byte sequence (43_sequence.md R95), as pure functions. -/

namespace Sys2Proof.Machine

/-- `Error(kind, detail, pos, slot)` (R11). The kind is the detail's (R110). -/
structure CmdError where
  detail : Detail
  pos : BitVec 16
  slot : BitVec 2
deriving DecidableEq, Repr

/-- An error at slot `j`, with position 0. -/
def CmdError.atSlot (d : Detail) (j : Nat) : CmdError := ⟨d, 0#16, BitVec.ofNat 2 j⟩

/-- An error at position `j`, with slot 0. -/
def CmdError.atPos (d : Detail) (j : Nat) : CmdError := ⟨d, BitVec.ofNat 16 j, 0#2⟩

/-- An error with neither. -/
def CmdError.plain (d : Detail) : CmdError := ⟨d, 0#16, 0#2⟩

/-! ### Encoding -/

/-- The block value: the unsigned little-endian number of the bytes (R76). -/
def blockValue (bs : List Byte) : Nat := fromBase 256 (bs.map BitVec.toNat).reverse

/-- The canonical index-tuple length of a block length (R77). -/
def canonLen : Nat → Nat
  | 1 => 1
  | 2 => 2
  | 3 => 3
  | 4 => 3
  | _ => 0

/-- Left-pad with zero digits up to length `len` (R79). -/
def padLeft (len : Nat) (ds : List Nat) : List Nat := List.replicate (len - ds.length) 0 ++ ds

/-- The index tuple of a block of 1 to 4 bytes, steps 1 to 5 of R80. -/
def blockTuple (bs : List Byte) : List Nat :=
  let t := padLeft (canonLen bs.length) (toBase Config.radix (blockValue bs))
  if bs.length = 3 then t.modify 2 (· + Config.disambigOffset) else t

/-- `encodeBlock` (R80). -/
def encodeBlock (bs : List Byte) : Except CmdError (List Nat) :=
  if bs.length = 0 ∨ Config.blockMax < bs.length then .error (.atSlot .blockLen 0) else .ok (blockTuple bs)

/-! ### Decoding -/

/-- What decodeBlock reads of a slot: its index and its recognition bit (R82). -/
abbrev CodecSlot := Nat × Bool

/-- Whether a group carries the disambiguation offset: three indices, the last in bank B (R82 step 3). -/
def hasOffset (ix : List Nat) : Bool := decide (ix.length = 3) && decide (Config.radix ≤ ix.getD 2 0)

/-- The output length of a group (R82 step 3). -/
def outLength (ix : List Nat) : Nat := if ix.length = 3 then (if hasOffset ix then 3 else 4) else ix.length

/-- The positions that are not the disambiguator position: all of a group of 1 or 2, the first two of 3 (R82 step 4). -/
def plainPositions (ix : List Nat) : List Nat := if ix.length = 3 then ix.take 2 else ix

/-- The digits of a group, the offset taken off the final one (R82 step 5). -/
def groupDigits (ix : List Nat) : List Nat :=
  if hasOffset ix then ix.modify 2 (· - Config.disambigOffset) else ix

/-- The bytes of a value, least significant first, no leading zero byte (R82 step 7). -/
def valueBytes (v : Nat) : List Byte := (toBase 256 v).reverse.map (BitVec.ofNat 8)

/-- Steps 3 to 8 of R82, on the indices of a group all of whose words were recognised. -/
def decodeIndices (ix : List Nat) : Except CmdError (List Byte) :=
  match (plainPositions ix).findIdx? (fun i => decide (Config.radix ≤ i)) with
  | some j => .error (.atSlot .bankBPosition j)
  | none =>
    match (groupDigits ix).findIdx? (fun d => decide (Config.radix ≤ d)) with
    | some j => .error (.atSlot .digitRange j)
    | none =>
      let raw := valueBytes (fromBase Config.radix (groupDigits ix))
      if outLength ix < raw.length then .error (.atSlot .valueOverflow 0)
      else .ok (raw ++ List.replicate (outLength ix - raw.length) 0#8)

/-- `decodeBlock` (R82): the group length, then recognition, then the rest. -/
def decodeBlock (c : Nat) (s : List CodecSlot) : Except CmdError (List Byte) :=
  if c = 0 ∨ Config.groupMax < c then .error (.atSlot .groupLen 0)
  else
    match (s.take c).findIdx? (fun x => !x.2) with
    | some j => .error (.atSlot .unrecognized j)
    | none => decodeIndices ((s.take c).map Prod.fst)

/-! ### Word-bank addresses -/

/-- The word-bank address of an index below 3252: BANK in bit 11, ROW in bits [10:0] (R89). -/
def bankAddr (i : Nat) : Nat := if i < Config.bankSize then i else 2 ^ 11 + (i - Config.bankSize)

/-- The index of a word-bank address whose row is below 1626 (R90). -/
def indexOfBankAddr (a : Nat) : Nat := (a / 2 ^ 11) % 2 * Config.bankSize + a % 2 ^ 11

/-- A used output slot: IDX, ADDR and RECOG = 1 (R63, R86). -/
def slotWord (i : Nat) : Word := BitVec.ofNat 32 (i + bankAddr i * 2 ^ 16 + 2 ^ 31)

/-- Output slot j of a tuple: the slot word, or 0 for a slot at or above its length (R86). -/
def tupleSlot (t : List Nat) (j : Nat) : Word :=
  match t[j]? with
  | some i => slotWord i
  | none => 0#32

/-! ### Sequences -/

/-- The blocks of a byte sequence: 4 bytes each, the last 1 to 4 (R95). -/
def partition : List Byte → List (List Byte)
  | [] => []
  | b0 :: b1 :: b2 :: b3 :: rest => [b0, b1, b2, b3] :: partition rest
  | short => [short]

/-- decodeBlock over groups `k`, `k+1`, ... in order, the results joined; the first error, with its group's index as the
position (R97, R99). -/
def decodeGroups (k : Nat) : List (Nat × List CodecSlot) → Except CmdError (List Byte)
  | [] => .ok []
  | g :: gs =>
    match decodeBlock g.1 g.2 with
    | .error e => .error ⟨e.detail, BitVec.ofNat 16 k, e.slot⟩
    | .ok out =>
      match decodeGroups (k + 1) gs with
      | .error e => .error e
      | .ok rest => .ok (out ++ rest)

end Sys2Proof.Machine
end

