-- ==== Sys2Proof/WellFormed.lean ====
section
/-! DEFINITION. Which terms of `Instr` stand for a command word: the conditions of the rows of R59. -/

namespace Sys2Proof

/-- The conditions R59 puts on the free bits of the two reserved classes. -/
def Instr.wellFormed : Instr → Bool
  | .nop => true
  | .tobase => true
  | .frombase => true
  | .encblk => true
  | .decblk => true
  | .xlate => true
  | .encseq => true
  | .decseq => true
  | .badOpReservedOpcode op => decide (8 ≤ op.toNat)
  | .badOpReservedBits mbz _ => decide (mbz ≠ 0#28)

end Sys2Proof
end

