-- ==== Sys2Proof/Decode.lean ====
section
/-! DEFINITION. The decoder of R59 and its encoder. Every 32-bit word is a command, so the decoder of words is total;
the decoder of bytes rejects, by name, bytes that are not one word (R61). -/

namespace Sys2Proof

/-- Bits [31:4] of a command word, MBZ (R58). -/
def mbzField (w : Word) : BitVec 28 := w.extractLsb' 4 28

/-- Bits [3:0] of a command word, OP (R58). -/
def opField (w : Word) : BitVec 4 := w.extractLsb' 0 4

/-- The opcode map, in the order of its rows: the first row whose condition holds (R59). -/
def decodeWord (w : Word) : Instr :=
  if w = 0x00000000#32 then .nop
  else if w = 0x00000001#32 then .tobase
  else if w = 0x00000002#32 then .frombase
  else if w = 0x00000003#32 then .encblk
  else if w = 0x00000004#32 then .decblk
  else if w = 0x00000005#32 then .xlate
  else if w = 0x00000006#32 then .encseq
  else if w = 0x00000007#32 then .decseq
  else if mbzField w = 0#28 then .badOpReservedOpcode (opField w)
  else .badOpReservedBits (mbzField w) (opField w)

/-- The command word of a well-formed instruction (R58, R59). A term that stands for no word, which WellFormed refuses, gives
its fields put together, the word of another command. DESIGN CHOICE, safe: notes/assumptions/14.md. -/
def encode : Instr → Word
  | .nop => 0x00000000#32
  | .tobase => 0x00000001#32
  | .frombase => 0x00000002#32
  | .encblk => 0x00000003#32
  | .decblk => 0x00000004#32
  | .xlate => 0x00000005#32
  | .encseq => 0x00000006#32
  | .decseq => 0x00000007#32
  | .badOpReservedOpcode op => 0#28 ++ op
  | .badOpReservedBits mbz op => mbz ++ op

/-- Why bytes are not a command. -/
inductive DecodeError
  /-- A command is exactly one 32-bit word, four bytes (R61). Raised by `decode`; safe. -/
  | notOneWord
deriving DecidableEq, Repr

/-- The word in four bytes: byte i is lane i, bits [8i+7:8i] (R48). -/
def wordOfBytes (b0 b1 b2 b3 : Byte) : Word := b3 ++ b2 ++ b1 ++ b0

/-- The decoder on bytes: one word of four bytes, lane 0 first (R48, R61). DESIGN CHOICE, safe:
notes/assumptions/11.md. -/
def decode : List Byte → Except DecodeError Instr
  | [b0, b1, b2, b3] => .ok (decodeWord (wordOfBytes b0 b1 b2 b3))
  | _ => .error .notOneWord

/-- Byte lane i of a word, bits [8i+7:8i] (R48). -/
def lane (w : Word) (i : Nat) : Byte := w.extractLsb' (8 * i) 8

/-- The four bytes of a word, lane 0 first (R48). -/
def bytesOfWord (w : Word) : List Byte := [lane w 0, lane w 1, lane w 2, lane w 3]

/-- The instruction the decoder reads from an instruction whose bits are `w`: its `nbits` low bits, the bits above 0,
laid out as the four bytes of one bus word. -/
def decodeTableWord (nbits w : Nat) : Option Instr :=
  match decode (bytesOfWord (BitVec.ofNat 32 (w % 2 ^ nbits))) with
  | .ok i => some i
  | .error _ => none

end Sys2Proof
end

