-- ==== Sys2Proof/Machine/Memory.lean ====
section
/-! DEFINITION. The buffers: addresses of their cells (20_memory.md R43 to R46), reading and writing them, unwritten
cells (R47), and cells that become UNSPEC (R100, R126). -/

namespace Sys2Proof.Machine

/-! ### Addresses -/

/-- The host address of DIGIT_BUF[j] (R44). -/
def digitAddr (j : Nat) : Nat := 0x100 + 4 * j

/-- The host address of BYTE_BUF[a] (R45). -/
def byteAddr (a : Nat) : Nat := 0x10000 + a

/-- The host address of word `i` of GROUP_BUF[k]: HDR for i = 0, SLOT[i-1] for i = 1, 2, 3 (R46). -/
def groupAddr (k i : Nat) : Nat := 0x40000 + 16 * k + 4 * i

/-- Whether a host byte address is a byte of a buffer cell: bytes 0 and 1 of a DIGIT_BUF register (a cell stores 16 bits),
BYTE_BUF below BUF_BYTES, GROUP_BUF below 4 BUF_BYTES (R43 to R46). -/
def isCellByte (p : Config.Params) (a : Nat) : Bool :=
  (decide (0x100 ≤ a) && decide (a < 0x200) && decide (a % 4 < 2))
    || (decide (0x10000 ≤ a) && decide (a < 0x10000 + p.bufBytes))
    || (decide (0x40000 ≤ a) && decide (a < 0x40000 + 4 * p.bufBytes))

/-! ### The list of written bytes
Cells wider than a byte are held as their bytes. DESIGN CHOICE, safe: notes/assumptions/13.md. -/

/-- The canonical form: addresses strictly rising. An unlisted address holds no value (R47), so no entry equals it. -/
abbrev Memory.wf (m : Memory) : Prop := m.Pairwise (fun x y => x.1 < y.1)

/-- The byte written at an address, if one was (R47). -/
def Memory.byte? : Memory → Nat → Option Byte
  | [], _ => none
  | (k, v) :: m, a => if k = a then some v else Memory.byte? m a

/-- Write one byte, keeping the addresses rising. -/
def Memory.store : Memory → Nat → Byte → Memory
  | [], a, v => [(a, v)]
  | (k, w) :: m, a, v =>
    if a < k then (a, v) :: (k, w) :: m
    else if k = a then (a, v) :: m
    else (k, w) :: Memory.store m a v

/-- Write bytes to rising addresses from `a` on. -/
def Memory.storeList (m : Memory) (a : Nat) : List Byte → Memory
  | [] => m
  | b :: bs => Memory.storeList (m.store a b) (a + 1) bs

/-! ### Reading cells -/

/-- The byte a read sees: an unwritten byte reads as a free value (R47, U1).
DESIGN CHOICE, safe: notes/assumptions/4.md. -/
def Memory.byteAt (m : Memory) (draw a : Nat) : Byte := (m.byte? a).getD (Config.freeByte draw a)

/-- A 16-bit cell (R44). -/
def Memory.cell16 (m : Memory) (draw a : Nat) : BitVec 16 := m.byteAt draw (a + 1) ++ m.byteAt draw a

/-- A 32-bit word, byte lane i at address a + i (R45, R48). -/
def Memory.cell32 (m : Memory) (draw a : Nat) : Word :=
  wordOfBytes (m.byteAt draw a) (m.byteAt draw (a + 1)) (m.byteAt draw (a + 2)) (m.byteAt draw (a + 3))

/-! ### Writing cells -/

/-- Write a 16-bit cell (R44). -/
def Memory.store16 (m : Memory) (a : Nat) (v : BitVec 16) : Memory :=
  m.storeList a [v.extractLsb' 0 8, v.extractLsb' 8 8]

/-- Write a 32-bit word, lane i to address a + i (R45, R46). -/
def Memory.store32 (m : Memory) (a : Nat) (w : Word) : Memory := m.storeList a (bytesOfWord w)

/-- Write DIGIT_BUF[j], DIGIT_BUF[j+1], ... (R44). -/
def Memory.storeDigits (m : Memory) (j : Nat) : List (BitVec 16) → Memory
  | [] => m
  | d :: ds => Memory.storeDigits (m.store16 (digitAddr j) d) (j + 1) ds

/-! ### Cells that become UNSPEC -/

/-- One cell of `width` bytes at `a` becomes UNSPEC: it takes any value, or keeps its old content, "its old value ... or
any other value" (R100, R126; U4, U5). DESIGN CHOICE, safe: notes/assumptions/8.md. -/
def Memory.disturb (m : Memory) (draw width a : Nat) : Memory :=
  match Config.freeCell draw a with
  | none => m
  | some v => m.storeList a ((bytesOfWord v).take width)

/-- `n` cells of `width` bytes, the first at `a` and one every `stride` addresses, become UNSPEC. -/
def Memory.disturbCells (m : Memory) (draw width stride a : Nat) : Nat → Memory
  | 0 => m
  | n + 1 => Memory.disturbCells (m.disturb draw width a) draw width stride (a + stride) n

end Sys2Proof.Machine
end

