-- ==== Sys2Proof/Machine/Operands.lean ====
section
/-! DEFINITION. Operand forms: how a command's operands are assembled from the registers and buffers of its snapshot
(30_encoding.md R62 to R65), and how its results are laid out in words (R62 to R64). -/

namespace Sys2Proof.Machine

/-- `VAL = VAL_HI * 2^32 + VAL_LO` (R35, R65). -/
def Regs.val (g : Regs) : Nat := g.valHi.toNat * 2 ^ 32 + g.valLo.toNat

/-- The block operand: lanes 0 to LEN-1 of BLK_IN (R62). -/
def Regs.block (g : Regs) : List Byte := (List.range g.blkLen.toNat).map (lane g.blkIn)

/-- A word's IDX and RECOG, the fields of the slot format that are read (R63). -/
def slotOfWord (w : Word) : Slot := ⟨w.extractLsb' 0 12, w.getLsbD 31⟩

/-- The word an IDX_IN register reads: IDX and RECOG, the other bits 0 (R30). -/
def Slot.word (x : Slot) : Word := BitVec.ofNat 32 (x.idx.toNat + x.recog.toNat * 2 ^ 31)

/-- A slot as decodeBlock reads it. -/
def Slot.codec (x : Slot) : CodecSlot := (x.idx.toNat, x.recog)

/-- The three slots of DECBLK (R87). -/
def Regs.idxInSlots (g : Regs) : List CodecSlot := [g.idxIn0.codec, g.idxIn1.codec, g.idxIn2.codec]

/-- The digit operand: DIGIT_BUF[0..NDIG), big-endian (R65). -/
def Snapshot.digits (o : Snapshot) (draw : Nat) : List Nat :=
  (List.range o.regs.ndig.toNat).map (fun j => (o.mem.cell16 draw (digitAddr j)).toNat)

/-- The byte sequence of ENCSEQ: BYTE_BUF[0..SEQ_LEN) (R98). -/
def Snapshot.seqBytes (o : Snapshot) (draw : Nat) : List Byte :=
  (List.range o.regs.seqLen.toNat).map (fun a => o.mem.byteAt draw (byteAddr a))

/-- Group entry k as DECSEQ reads it: HDR[1:0], and IDX and RECOG of each SLOT (R64, R99). -/
def Snapshot.group (o : Snapshot) (draw k : Nat) : Nat × List CodecSlot :=
  (((o.mem.cell32 draw (groupAddr k 0)).extractLsb' 0 2).toNat,
    [(slotOfWord (o.mem.cell32 draw (groupAddr k 1))).codec,
     (slotOfWord (o.mem.cell32 draw (groupAddr k 2))).codec,
     (slotOfWord (o.mem.cell32 draw (groupAddr k 3))).codec])

/-- The group entries of DECSEQ: GROUP_BUF[0..GRP_CNT) (R99). -/
def Snapshot.groups (o : Snapshot) (draw : Nat) : List (Nat × List CodecSlot) :=
  (List.range o.regs.grpCnt.toNat).map (o.group draw)

/-- The four words of the group entry of a tuple: HDR and three slots (R64, R98). -/
def entryWords (t : List Nat) : List Word :=
  [BitVec.ofNat 32 t.length, tupleSlot t 0, tupleSlot t 1, tupleSlot t 2]

/-- The sixteen bytes of the group entry of a tuple (R46, R64). -/
def entryBytes (t : List Nat) : List Byte := (entryWords t).flatMap bytesOfWord

/-- The bytes of a block in the lanes of a word, lanes at or above its length 0 (R62, R87). -/
def blockWord (bs : List Byte) : Word := BitVec.ofNat 32 (blockValue bs)

/-- The 64 cells that TOBASE writes: the digits, then zeros (R74). -/
def digitCells (ds : List Nat) : List (BitVec 16) :=
  (List.range Config.maxDigits).map (fun j => BitVec.ofNat 16 (ds.getD j 0))

end Sys2Proof.Machine
end

