-- ==== Sys2Proof/Machine/Ops.lean ====
section
/-! DEFINITION. The operations every command and every host transaction share: acceptance of a command (44_control.md
R102), the record of its outcome at completion (60_exceptions.md R111), the result writes (20_memory.md R51), and reset with
the abandoning of a pending command (70_reset_and_hazards.md R124 to R126). -/

namespace Sys2Proof.Machine

/-! ### The life of a command -/

/-- What a command reads: the snapshot in PENDING (R39, R103). With PENDING = none, which no command runs in, the live
state (notes/assumptions/9.md). -/
def State.operands (s : State) : Snapshot :=
  match s.pending with
  | some p => p.snapshot
  | none => ⟨s.regs, s.mem⟩

/-- Acceptance of the command word `w` (R102), to complete after `delay` more host transactions (R103). -/
def State.accept (s : State) (w : Word) (delay : Nat) : State :=
  let g : Regs := { s.regs.clearError with cmd := w, busy := true, done := false }
  { s with regs := g, pending := some ⟨w, ⟨g, s.mem⟩, delay⟩ }

/-- The end of a command: BUSY, DONE and PENDING as R103 and R111 say. Free draws after this one are fresh. -/
def State.finish (s : State) : State :=
  { s with regs := { s.regs with busy := false, done := true }, pending := none, draws := s.draws + 1 }

/-- The registers with an Ok outcome recorded: no error (R111). -/
def Regs.okRecord (g : Regs) : Regs := g.clearError

/-- The registers with `Error(kind, detail, pos, slot)` recorded (R111). -/
def Regs.errorRecord (g : Regs) (e : CmdError) : Regs :=
  { g with err := true, kind := e.detail.kind, detail := e.detail, errPos := e.pos, errSlot := e.slot }

/-- Completion with Ok: `return Ok` (R11, R111). -/
def State.recordOk (s : State) : State := State.finish { s with regs := s.regs.okRecord }

/-- Completion in error: `raise Error(...)`, the one way the MBC takes an error (R11, R111, R113). -/
def State.recordError (s : State) (e : CmdError) : State := State.finish { s with regs := s.regs.errorRecord e }

/-- Commit: an Ok outcome makes its result writes and an Error outcome makes none (R104). -/
def State.commit {α : Type} (s : State) (outcome : Except CmdError α) (write : State → α → State) : State :=
  match outcome with
  | .ok a => (write s a).recordOk
  | .error e => s.recordError e

/-! ### Result writes -/

/-- The results of TOBASE: NDIG and all 64 cells of DIGIT_BUF (R74). -/
def State.writeDigits (s : State) (ds : List Nat) : State :=
  { s with regs := { s.regs with ndig := BitVec.ofNat 7 ds.length }, mem := s.mem.storeDigits 0 (digitCells ds) }

/-- The result of FROMBASE: VAL_LO and VAL_HI (R65, R75). -/
def State.writeVal (s : State) (v : Nat) : State :=
  { s with regs := { s.regs with valLo := BitVec.ofNat 32 v, valHi := BitVec.ofNat 32 (v / 2 ^ 32) } }

/-- The results of ENCBLK and XLATE: IDX_OUT0 to IDX_OUT2 and IDX_OUT_CNT (R86, R94). -/
def State.writeTuple (s : State) (t : List Nat) : State :=
  { s with regs := { s.regs with
      idxOut0 := tupleSlot t 0, idxOut1 := tupleSlot t 1, idxOut2 := tupleSlot t 2,
      idxOutCnt := BitVec.ofNat 2 t.length } }

/-- The results of DECBLK: BLK_OUT and BLK_OUT_LEN (R87). -/
def State.writeBlock (s : State) (bs : List Byte) : State :=
  { s with regs := { s.regs with blkOut := blockWord bs, blkOutLen := BitVec.ofNat 3 bs.length } }

/-- The results of ENCSEQ: all four words of GROUP_BUF[0..G), and GRP_CNT (R98). -/
def State.writeEntries (s : State) (ts : List (List Nat)) : State :=
  { s with
    regs := { s.regs with grpCnt := BitVec.ofNat 16 ts.length }
    mem := s.mem.storeList (groupAddr 0 0) (ts.flatMap entryBytes) }

/-- The results of DECSEQ: BYTE_BUF[0..total) and SEQ_LEN (R99). -/
def State.writeSeq (s : State) (bs : List Byte) : State :=
  { s with
    regs := { s.regs with seqLen := BitVec.ofNat 16 bs.length }
    mem := s.mem.storeList (byteAddr 0) bs }

/-- No result (R105). -/
def State.writeNothing (s : State) (_ : Unit) : State := s

/-- BYTE_BUF[0..4 GRP_CNT) becomes UNSPEC (R100). -/
def State.disturbSeq (s : State) (groups : Nat) : State :=
  { s with mem := s.mem.disturbCells s.draws 1 1 (byteAddr 0) (4 * groups) }

/-! ### Reset -/

/-- The buffers when a reset abandons the command `i`, read in `o`: the cells it may write become UNSPEC (R126, U5). -/
def abandonedMem (p : Config.Params) (draw : Nat) (i : Instr) (o : Snapshot) (m : Memory) : Memory :=
  match i with
  | .nop => m
  | .tobase => m.disturbCells draw 2 4 (digitAddr 0) Config.maxDigits
  | .frombase => m
  | .encblk => m
  | .decblk => m
  | .xlate => m
  | .encseq =>
    if o.regs.seqLen.toNat ≤ p.bufBytes then
      m.disturbCells draw 4 4 (groupAddr 0 0) (4 * ((o.regs.seqLen.toNat + 3) / 4))
    else m
  | .decseq =>
    if o.regs.grpCnt.toNat ≤ p.groupEntries then
      m.disturbCells draw 1 1 (byteAddr 0) (4 * o.regs.grpCnt.toNat)
    else m
  | .badOpReservedOpcode _ => m
  | .badOpReservedBits _ _ => m

/-- A reset pulse, hard or soft: every register takes its reset value, PENDING becomes none, the buffers keep their
contents but for the cells of an abandoned command (R124 to R126). -/
def State.resetPulse (s : State) : State :=
  { s with
    regs := Regs.reset
    pending := none
    mem := match s.pending with
      | some p => abandonedMem s.params s.draws (decodeWord p.word) p.snapshot s.mem
      | none => s.mem
    draws := s.draws + 1 }

end Sys2Proof.Machine
end

