-- ==== Sys2Proof/Machine/BlockCodec.lean ====
section
/-! DEFINITION. ENCBLK and DECBLK (41_block_codec.md). -/

namespace Sys2Proof.Machine

/-- The outcome of ENCBLK (R86). -/
def encblkOutcome (o : Snapshot) : Except CmdError (List Nat) :=
  if o.regs.blkLen.toNat = 0 ∨ Config.blockMax < o.regs.blkLen.toNat then .error (.plain .blockLen)
  else encodeBlock o.regs.block

/-- The outcome of DECBLK (R87). -/
def decblkOutcome (o : Snapshot) : Except CmdError (List Byte) :=
  decodeBlock o.regs.idxInCnt.toNat o.regs.idxInSlots

/-- ENCBLK: encode the block in BLK_IN into an index tuple and its word-bank addresses (R86). -/
def execEncblk (s : State) : Host.Outcome State Fault Refusal :=
  .next (s.commit (encblkOutcome s.operands) State.writeTuple)

/-- DECBLK: decode the group in IDX_IN into block bytes (R87). -/
def execDecblk (s : State) : Host.Outcome State Fault Refusal :=
  .next (s.commit (decblkOutcome s.operands) State.writeBlock)

end Sys2Proof.Machine
end

