-- ==== Sys2Proof/Machine/Control.lean ====
section
/-! DEFINITION. NOP and the two reserved classes, BAD_OP (44_control.md). Terms of these classes that stand for no word act
like the others: DESIGN CHOICE, safe: notes/assumptions/14.md. -/

namespace Sys2Proof.Machine

/-- NOP: `return Ok` (R105). -/
def execNop (s : State) : Host.Outcome State Fault Refusal :=
  .next (s.commit (.ok ()) State.writeNothing)

/-- BAD_OP of a reserved opcode: `raise Error(InvalidArgument, BAD_OP, pos=0, slot=0)` (R106). No bit of the word is
read. -/
def execBadOpReservedOpcode (_op : BitVec 4) (s : State) : Host.Outcome State Fault Refusal :=
  .next (s.commit (.error (.plain .badOp)) State.writeNothing)

/-- BAD_OP of a word with reserved bits set (R106). No bit of the word is read. -/
def execBadOpReservedBits (_mbz : BitVec 28) (_op : BitVec 4) (s : State) : Host.Outcome State Fault Refusal :=
  .next (s.commit (.error (.plain .badOp)) State.writeNothing)

end Sys2Proof.Machine
end

