-- ==== Sys2Proof/Machine/DigitConverter.lean ====
section
/-! DEFINITION. TOBASE and FROMBASE (40_digit_converter.md). -/

namespace Sys2Proof.Machine

/-- The outcome of TOBASE (R74). -/
def tobaseOutcome (o : Snapshot) : Except CmdError (List Nat) :=
  if o.regs.base.toNat < 2 then .error (.plain .baseRange)
  else .ok (toBase o.regs.base.toNat o.regs.val)

/-- The outcome of FROMBASE (R75). -/
def frombaseOutcome (o : Snapshot) (draw : Nat) : Except CmdError Nat :=
  if o.regs.base.toNat < 2 then .error (.plain .baseRange)
  else if Config.maxDigits < o.regs.ndig.toNat then .error (.plain .digitCount)
  else
    match (o.digits draw).findIdx? (fun d => decide (o.regs.base.toNat ≤ d)) with
    | some j => .error (.atPos .digitRange j)
    | none =>
      if 2 ^ Config.valWidth ≤ fromBase o.regs.base.toNat (o.digits draw) then .error (.plain .valueOverflow)
      else .ok (fromBase o.regs.base.toNat (o.digits draw))

/-- TOBASE: convert VAL to digits in radix BASE (R74). -/
def execTobase (s : State) : Host.Outcome State Fault Refusal :=
  .next (s.commit (tobaseOutcome s.operands) State.writeDigits)

/-- FROMBASE: convert the digits in DIGIT_BUF to VAL (R75). -/
def execFrombase (s : State) : Host.Outcome State Fault Refusal :=
  .next (s.commit (frombaseOutcome s.operands s.draws) State.writeVal)

end Sys2Proof.Machine
end

