-- ==== Sys2Proof/Machine/Sequence.lean ====
section
/-! DEFINITION. ENCSEQ and DECSEQ (43_sequence.md). Blocks are processed in increasing order (R97, U7;
DEDUCED, safe: notes/assumptions/16.md). -/

namespace Sys2Proof.Machine

/-- The outcome of ENCSEQ: the index tuple of every block of the sequence (R98). No block can fail (R95). -/
def encseqOutcome (p : Config.Params) (o : Snapshot) (draw : Nat) : Except CmdError (List (List Nat)) :=
  if p.bufBytes < o.regs.seqLen.toNat then .error (.plain .seqRange)
  else .ok ((partition (o.seqBytes draw)).map blockTuple)

/-- The outcome of DECSEQ (R99). -/
def decseqOutcome (p : Config.Params) (o : Snapshot) (draw : Nat) : Except CmdError (List Byte) :=
  if p.groupEntries < o.regs.grpCnt.toNat then .error (.plain .seqRange)
  else decodeGroups 0 (o.groups draw)

/-- ENCSEQ: encode the first SEQ_LEN bytes of BYTE_BUF into group entries (R98). -/
def execEncseq (s : State) : Host.Outcome State Fault Refusal :=
  .next (s.commit (encseqOutcome s.params s.operands s.draws) State.writeEntries)

/-- The state in which DECSEQ records its outcome: after an error other than SEQ_RANGE, BYTE_BUF[0..4 GRP_CNT) has become
UNSPEC (R100). -/
def decseqDisturbed (s : State) (outcome : Except CmdError (List Byte)) : State :=
  match outcome with
  | .ok _ => s
  | .error e => if e.detail = .seqRange then s else s.disturbSeq s.operands.regs.grpCnt.toNat

/-- DECSEQ: decode GRP_CNT group entries into BYTE_BUF (R99, R100). -/
def execDecseq (s : State) : Host.Outcome State Fault Refusal :=
  let outcome := decseqOutcome s.params s.operands s.draws
  .next ((decseqDisturbed s outcome).commit outcome State.writeSeq)

end Sys2Proof.Machine
end

