-- ==== Sys2Proof/Machine/WordBank.lean ====
section
/-! DEFINITION. XLATE (42_word_bank_lookup.md). -/

namespace Sys2Proof.Machine

/-- The outcome of XLATE: the index as a tuple of one (R94). -/
def xlateOutcome (o : Snapshot) : Except CmdError (List Nat) :=
  if Config.vocabSize ≤ o.regs.idxIn0.idx.toNat then .error (.plain .indexRange)
  else .ok [o.regs.idxIn0.idx.toNat]

/-- XLATE: translate one index to its word-bank address (R94). -/
def execXlate (s : State) : Host.Outcome State Fault Refusal :=
  .next (s.commit (xlateOutcome s.operands) State.writeTuple)

end Sys2Proof.Machine
end

