-- ==== Sys2Proof/Machine/Dispatch.lean ====
section
/-! DEFINITION. The command engine's completion step, command by command (44_control.md R103): one arm per row of
spec/opcode_table.json. -/

namespace Sys2Proof.Machine

def exec (i : Instr) (s : State) : Host.Outcome State Fault Refusal :=
  match i with
  | .nop => Sys2Proof.Machine.execNop s
  | .tobase => Sys2Proof.Machine.execTobase s
  | .frombase => Sys2Proof.Machine.execFrombase s
  | .encblk => Sys2Proof.Machine.execEncblk s
  | .decblk => Sys2Proof.Machine.execDecblk s
  | .xlate => Sys2Proof.Machine.execXlate s
  | .encseq => Sys2Proof.Machine.execEncseq s
  | .decseq => Sys2Proof.Machine.execDecseq s
  | .badOpReservedOpcode op => Sys2Proof.Machine.execBadOpReservedOpcode op s
  | .badOpReservedBits mbz op => Sys2Proof.Machine.execBadOpReservedBits mbz op s

end Sys2Proof.Machine
end

