-- ==== Sys2Proof/Machine/HostPort.lean ====
section
/-! DEFINITION. The host register port: the address map (10_state.md R19, 20_memory.md R42, R43), HostRead and HostWrite
(R41 to R46, R50), the busy rules (70_reset_and_hazards.md R128, R129), reset from outside (R124, R125), and the turn of the
host among the steps of the machine. -/

namespace Sys2Proof.Machine

/-! ### The address map -/

/-- The registers of the register page by name (R19). -/
inductive RegName
  | id
  | param
  | ctrl
  | cmd
  | status
  | errPos
  | blkIn
  | blkLen
  | blkOut
  | blkOutLen
  | idxIn0
  | idxIn1
  | idxIn2
  | idxInCnt
  | idxOut0
  | idxOut1
  | idxOut2
  | idxOutCnt
  | base
  | valLo
  | valHi
  | ndig
  | seqLen
  | grpCnt
deriving DecidableEq, Repr

/-- The offset of each register (R19). -/
def regOffset : RegName → Nat
  | .id => 0x000
  | .param => 0x004
  | .ctrl => 0x008
  | .cmd => 0x00C
  | .status => 0x010
  | .errPos => 0x014
  | .blkIn => 0x020
  | .blkLen => 0x024
  | .blkOut => 0x028
  | .blkOutLen => 0x02C
  | .idxIn0 => 0x030
  | .idxIn1 => 0x034
  | .idxIn2 => 0x038
  | .idxInCnt => 0x03C
  | .idxOut0 => 0x040
  | .idxOut1 => 0x044
  | .idxOut2 => 0x048
  | .idxOutCnt => 0x04C
  | .base => 0x050
  | .valLo => 0x054
  | .valHi => 0x058
  | .ndig => 0x05C
  | .seqLen => 0x060
  | .grpCnt => 0x064

/-- Every register of the page, in the order of R19. -/
def regNames : List RegName :=
  [.id, .param, .ctrl, .cmd, .status, .errPos, .blkIn, .blkLen, .blkOut, .blkOutLen, .idxIn0, .idxIn1, .idxIn2,
    .idxInCnt, .idxOut0, .idxOut1, .idxOut2, .idxOutCnt, .base, .valLo, .valHi, .ndig, .seqLen, .grpCnt]

/-- What a word of the host address space is (R43). -/
inductive Target
  /-- A register of the page. -/
  | reg (n : RegName)
  /-- DIGIT_BUF[j] (R44). -/
  | digit (j : Nat)
  /-- Word w of BYTE_BUF, its bytes 4w to 4w+3 (R45). -/
  | bytes (w : Nat)
  /-- Word i of GROUP_BUF[k]: HDR for 0, SLOT[i-1] for 1 to 3 (R46). -/
  | group (k i : Nat)
  /-- No register and no populated cell: reads 0, writes ignored (R18, R43). -/
  | reserved
deriving DecidableEq, Repr

/-- What stands at a 4-aligned host address (R43). -/
def targetAt (p : Config.Params) (a : Nat) : Target :=
  match regNames.find? (fun n => regOffset n == a) with
  | some n => .reg n
  | none =>
    if 0x100 ≤ a ∧ a < 0x200 then .digit ((a - 0x100) / 4)
    else if 0x10000 ≤ a ∧ a < 0x10000 + p.bufBytes then .bytes ((a - 0x10000) / 4)
    else if 0x40000 ≤ a ∧ a < 0x40000 + 4 * p.bufBytes then .group ((a - 0x40000) / 16) ((a - 0x40000) / 4 % 4)
    else .reserved

/-- The word a transaction acts on: address bits [1:0] are ignored (R42). -/
def target (p : Config.Params) (a : HostAddr) : Target := targetAt p (a.toNat - a.toNat % 4)

/-! ### Reads -/

/-- ID: RADIX in [31:16], BANKS in [15:12], BLOCK_MAX in [11:8], GROUP_MAX in [7:4] (R20). -/
def idWord : Word :=
  BitVec.ofNat 32 (Config.radix * 2 ^ 16 + 2 * 2 ^ 12 + Config.blockMax * 2 ^ 8 + Config.groupMax * 2 ^ 4)

/-- PARAM: VAL_W in [7:0], MAX_DIGITS in [15:8], GROUP_ENTRIES in [31:16] (R21). -/
def paramWord (p : Config.Params) : Word :=
  BitVec.ofNat 32 (Config.valWidth + Config.maxDigits * 2 ^ 8 + p.groupEntries * 2 ^ 16)

/-- The word a register reads (R18, R20 to R38): its fields, reserved bits 0. -/
def State.readReg (s : State) : RegName → Word
  | .id => idWord
  | .param => paramWord s.params
  | .ctrl => s.regs.ctrlWord
  | .cmd => s.regs.cmd
  | .status => s.regs.statusWord
  | .errPos => s.regs.errPosWord
  | .blkIn => s.regs.blkIn
  | .blkLen => s.regs.blkLen.zeroExtend 32
  | .blkOut => s.regs.blkOut
  | .blkOutLen => s.regs.blkOutLen.zeroExtend 32
  | .idxIn0 => s.regs.idxIn0.word
  | .idxIn1 => s.regs.idxIn1.word
  | .idxIn2 => s.regs.idxIn2.word
  | .idxInCnt => s.regs.idxInCnt.zeroExtend 32
  | .idxOut0 => s.regs.idxOut0
  | .idxOut1 => s.regs.idxOut1
  | .idxOut2 => s.regs.idxOut2
  | .idxOutCnt => s.regs.idxOutCnt.zeroExtend 32
  | .base => s.regs.base.zeroExtend 32
  | .valLo => s.regs.valLo
  | .valHi => s.regs.valHi
  | .ndig => s.regs.ndig.zeroExtend 32
  | .seqLen => s.regs.seqLen.zeroExtend 32
  | .grpCnt => s.regs.grpCnt.zeroExtend 32

/-- The word a target reads when the block is neither busy nor in reset (R43 to R47). -/
def State.readTarget (s : State) : Target → Word
  | .reg n => s.readReg n
  | .digit j => (s.mem.cell16 s.draws (digitAddr j)).zeroExtend 32
  | .bytes w => s.mem.cell32 s.draws (byteAddr (4 * w))
  | .group k i => s.mem.cell32 s.draws (groupAddr k i)
  | .reserved => 0#32

/-- Whether a read returns its value while BUSY = 1: of ID, PARAM, CTRL, CMD and STATUS only (R129). -/
def readableBusy : Target → Bool
  | .reg .id => true
  | .reg .param => true
  | .reg .ctrl => true
  | .reg .cmd => true
  | .reg .status => true
  | _ => false

/-- HostRead(a): the word at a's 4-aligned address (R41, R42); UNSPEC while `rst` is asserted (R124) and, but for five
registers, while BUSY = 1 (R129). DESIGN CHOICE, safe: notes/assumptions/5.md. -/
def State.hostRead (s : State) (a : HostAddr) : Word :=
  if s.rst then Config.freeRead s.draws
  else if s.regs.busy && !readableBusy (target s.params a) then Config.freeRead s.draws
  else s.readTarget (target s.params a)

/-! ### Writes -/

/-- A slot register stores IDX and RECOG of the word written, and no other bit (R30, R63). -/
def writeSlot (d : Word) : Slot := slotOfWord d

/-- A write of `d` to a register that is plain storage: it stores the field's bits; a read-only register ignores the
write (R18, R19). CTRL, CMD and STATUS, whose writes do more (R50), are not written here. -/
def Regs.writeReg (g : Regs) (d : Word) : RegName → Regs
  | .id => g
  | .param => g
  | .ctrl => g
  | .cmd => g
  | .status => g
  | .errPos => g
  | .blkIn => { g with blkIn := d }
  | .blkLen => { g with blkLen := d.extractLsb' 0 3 }
  | .blkOut => g
  | .blkOutLen => g
  | .idxIn0 => { g with idxIn0 := writeSlot d }
  | .idxIn1 => { g with idxIn1 := writeSlot d }
  | .idxIn2 => { g with idxIn2 := writeSlot d }
  | .idxInCnt => { g with idxInCnt := d.extractLsb' 0 2 }
  | .idxOut0 => g
  | .idxOut1 => g
  | .idxOut2 => g
  | .idxOutCnt => g
  | .base => { g with base := d.extractLsb' 0 16 }
  | .valLo => { g with valLo := d }
  | .valHi => { g with valHi := d }
  | .ndig => { g with ndig := d.extractLsb' 0 7 }
  | .seqLen => { g with seqLen := d.extractLsb' 0 16 }
  | .grpCnt => { g with grpCnt := d.extractLsb' 0 16 }

/-- A write to CTRL: with SRST set, a soft reset, whatever bit 0 is (R125); else IE takes bit 0 (R22). -/
def State.writeCtrl (s : State) (d : Word) : State :=
  if d.getLsbD 1 then s.resetPulse else { s with regs := s.regs.writeCtrl d }

/-- Acceptance of a CMD write (R102), its latency a free value (R103, U6).
DESIGN CHOICE, safe: notes/assumptions/2.md. -/
def State.acceptCmd (s : State) (d : Word) : State :=
  { s.accept d (Config.latency s.draws) with draws := s.draws + 1 }

/-- A write to a target while BUSY = 0, CTRL and STATUS apart (R43 to R46, R102). -/
def State.writeTarget (s : State) (d : Word) : Target → State
  | .reg .cmd => s.acceptCmd d
  | .reg n => { s with regs := s.regs.writeReg d n }
  | .digit j => { s with mem := s.mem.store16 (digitAddr j) (d.extractLsb' 0 16) }
  | .bytes w => { s with mem := s.mem.store32 (byteAddr (4 * w)) d }
  | .group k i => { s with mem := s.mem.store32 (groupAddr k i) d }
  | .reserved => s

/-- HostWrite(a, d) (R41, R42): no effect while `rst` is asserted (R124); CTRL and STATUS at any time (R22, R24); any other
write is dropped and sets OVR while BUSY = 1 (R128). -/
def State.hostWrite (s : State) (a : HostAddr) (d : Word) : State :=
  if s.rst then s
  else
    match target s.params a with
    | .reg .ctrl => s.writeCtrl d
    | .reg .status => { s with regs := s.regs.writeStatus d }
    | t => if s.regs.busy then { s with regs := { s.regs with ovr := true } } else s.writeTarget d t

/-! ### The `rst` port -/

/-- The `rst` port takes a level: asserting it resets the block, and while it stays asserted nothing moves (R124).
DEDUCED, safe: notes/assumptions/17.md. -/
def State.setRst (s : State) (level : Bool) : State :=
  if level then { s.resetPulse with rst := true } else { s with rst := false }

/-! ### The host's turn -/

/-- The host address of STATUS (R19). -/
def statusAddr : HostAddr := BitVec.ofNat 20 (regOffset .status)

/-- The host address of CMD (R19). -/
def cmdAddr : HostAddr := BitVec.ofNat 20 (regOffset .cmd)

/-- A read transaction: its data is the port's, `r` (R66), and free draws after it are fresh (R129). -/
def State.readInto (s : State) (a : HostAddr) : State :=
  { s with r := s.hostRead a, draws := s.draws + 1 }

/-- One statement of the script is carried out; `wait` is one `rd STATUS` of its loop (R66, R67). -/
def State.perform (s : State) : HostAction → State
  | .rd a => s.readInto a
  | .wr a v => s.hostWrite a v
  | .wrR a => s.hostWrite a s.r
  | .expect a v =>
    { s.readInto a with checksFailed := s.checksFailed + (if s.hostRead a = v then 0 else 1) }
  | .wait => s.readInto statusAddr
  | .rst level => s.setRst level

/-- Whether a statement is to be carried out again: `wait` while the STATUS it read has BUSY = 1 (R67). -/
def repeats (a : HostAction) (r : Word) : Bool :=
  match a with
  | .wait => r.getLsbD 0
  | _ => false

/-- One host transaction has come between acceptance and completion (R103). -/
def State.tick (s : State) : State :=
  { s with pending := s.pending.map (fun p => { p with delay := p.delay - 1 }) }

/-- The host's next transaction, or the next edge of `rst`; with nothing left to do, nothing moves (R41, R123). -/
def State.hostTurn (s : State) : State :=
  match s.script with
  | [] => s
  | a :: rest =>
    let t := s.tick.perform a
    { t with script := if repeats a t.r then a :: rest else rest }

/-- Whether the engine's completion step comes next, and for which word: PENDING holds a command, and no host transaction
is to come before it, because its latency is over or because the host has nothing left to do (R103).
DESIGN CHOICE, safe: notes/assumptions/3.md. -/
def State.engineWord (s : State) : Option Word :=
  match s.pending with
  | some p => if p.delay = 0 ∨ s.script = [] then some p.word else none
  | none => none

end Sys2Proof.Machine
end

