-- ==== Sys2Proof/Machine/Step.lean ====
section
/-! DEFINITION. One step of the machine: the engine's completion step when it is due (44_control.md R103), else the host's
next transaction (20_memory.md R41). -/

namespace Sys2Proof.Machine

/-- One step. -/
def step (s : State) : Host.Outcome State Fault Refusal :=
  match s.engineWord with
  | some w => exec (decodeWord w) s
  | none => .next s.hostTurn

/-- `s` with the command word of the low `nbits` bits of `w` accepted (R102), its completion step the very next step. The
MBC fetches no instruction (R17): PENDING is where the engine finds its command, and a host write to CMD, which this stands
for, is what puts it there (notes/assumptions/7.md). -/
def State.withFetchWord (s : State) (nbits w : Nat) : State :=
  State.accept { s with rst := false } (BitVec.ofNat 32 (w % 2 ^ nbits)) 0

end Sys2Proof.Machine
end

