-- ==== Sys2Proof/Machine/Script.lean ====
section
/-! DEFINITION. Host scripts (30_encoding.md R66, R67): names of registers and buffer words, and the statements and
pseudo-instructions that expand into host transactions. The text of a script (comments, numerals) is not modelled, its
statements are (DESIGN CHOICE, safe: notes/assumptions/15.md). -/

namespace Sys2Proof.Machine

/-- A NAME of a script (R66). -/
inductive ScriptName
  /-- A register of R19. -/
  | reg (n : RegName)
  /-- `DIGIT_BUF[j]`. -/
  | digit (j : Nat)
  /-- `BYTE_BUF.W[w]`. -/
  | byteWord (w : Nat)
  /-- `GROUP_BUF[k].HDR`. -/
  | hdr (k : Nat)
  /-- `GROUP_BUF[k].SLOT[j]`. -/
  | slot (k j : Nat)
  /-- A literal address. -/
  | lit (a : HostAddr)
deriving DecidableEq, Repr

/-- `addr(NAME)` (R66). With an index beyond its buffer, which is no NAME of the spec, the same formula in 20 bits.
DESIGN CHOICE, unsafe for a claim on such a script only: notes/assumptions/18.md. -/
def scriptAddr : ScriptName → HostAddr
  | .reg n => BitVec.ofNat 20 (regOffset n)
  | .digit j => BitVec.ofNat 20 (digitAddr j)
  | .byteWord w => BitVec.ofNat 20 (byteAddr (4 * w))
  | .hdr k => BitVec.ofNat 20 (groupAddr k 0)
  | .slot k j => BitVec.ofNat 20 (groupAddr k (j + 1))
  | .lit a => a

/-- `wr NAME, v` (R66). -/
def scriptWr (n : ScriptName) (v : Word) : List HostAction := [.wr (scriptAddr n) v]

/-- `wr NAME, r`, with the value the script read last (R66; program P1 of 95_test_vectors.md). -/
def scriptWrR (n : ScriptName) : List HostAction := [.wrR (scriptAddr n)]

/-- `rd NAME` (R66). -/
def scriptRd (n : ScriptName) : List HostAction := [.rd (scriptAddr n)]

/-- `cmd MNEMONIC`: write the opcode to CMD (R66). Of BAD_OP, a mnemonic R59 gives no single opcode, so that R66 gives no
expansion, the whole command word of the term is written, reserved bits too; of a term that stands for no word, its fields
put together, which may be another command's word.
DESIGN CHOICE, unsafe for a claim on such a script only: notes/assumptions/18.md. -/
def scriptCmd (i : Instr) : List HostAction := [.wr cmdAddr (encode i)]

/-- `expect NAME, v` (R66). -/
def scriptExpect (n : ScriptName) (v : Word) : List HostAction := [.expect (scriptAddr n) v]

/-- `wait` (R67). -/
def scriptWait : List HostAction := [.wait]

/-- `ack`: `wr STATUS, 0x2` (R67). -/
def scriptAck : List HostAction := [.wr statusAddr 0x2#32]

/-- `slot(i, g)`: the slot word `i + g * 2^31` (R67). With a sum that is no 32-bit value, its low 32 bits.
DESIGN CHOICE, unsafe for a claim on such a script only: notes/assumptions/18.md. -/
def scriptSlot (i g : Nat) : Word := BitVec.ofNat 32 (i + g * 2 ^ 31)

/-- `wrbytes a, b0, b1, ...` with a = 4w: one word write for each four bytes, missing bytes 0 (R67). Beyond
BYTE_BUF, the addresses of the same formula.
DESIGN CHOICE, unsafe for a claim on such a script only: notes/assumptions/18.md. -/
def scriptWrbytes (w : Nat) : List Byte → List HostAction
  | [] => []
  | b0 :: b1 :: b2 :: b3 :: rest =>
    .wr (scriptAddr (.byteWord w)) (wordOfBytes b0 b1 b2 b3) :: scriptWrbytes (w + 1) rest
  | short =>
    [.wr (scriptAddr (.byteWord w))
      (wordOfBytes (short.getD 0 0#8) (short.getD 1 0#8) (short.getD 2 0#8) 0#8)]

/-- `run MNEMONIC`: `cmd MNEMONIC` then `wait` (R67); of BAD_OP, with the word `scriptCmd` writes.
DESIGN CHOICE there, as for `cmd`: notes/assumptions/18.md. -/
def scriptRun (i : Instr) : List HostAction := scriptCmd i ++ scriptWait

/-- `encblk b0, ..., b(n-1)` (R67). With more than four bytes, where `b0 + b1 * 2^8 + ...` is no 32-bit value and R67 gives
no expansion, BLK_IN is written with the first four bytes and BLK_LEN with n.
DESIGN CHOICE, unsafe for a claim on such a script only: notes/assumptions/18.md. -/
def scriptEncblk (bs : List Byte) : List HostAction :=
  scriptWr (.reg .blkIn) (blockWord bs) ++ scriptWr (.reg .blkLen) (BitVec.ofNat 32 bs.length) ++ scriptRun .encblk

/-- The IDX_IN register of slot j (R19). Of slot 3 and above, which R19 has no register for, IDX_IN2.
DESIGN CHOICE, unsafe for a claim on such a script only: notes/assumptions/18.md. -/
def idxInName : Nat → RegName
  | 0 => .idxIn0
  | 1 => .idxIn1
  | _ => .idxIn2

/-- The slot writes of `decblk`, from slot j on (R67). -/
def scriptSlots (j : Nat) : List (Nat × Nat) → List HostAction
  | [] => []
  | x :: xs => scriptWr (.reg (idxInName j)) (scriptSlot x.1 x.2) ++ scriptSlots (j + 1) xs

/-- `decblk (i0,g0), ..., (i(c-1),g(c-1))` (R67). With more than three slots, where R19 has no IDX_IN3 and R67 gives no
expansion, each slot from the third on is written to IDX_IN2, the last one staying, and IDX_IN_CNT is written with c.
DESIGN CHOICE, unsafe for a claim on such a script only: notes/assumptions/18.md. -/
def scriptDecblk (slots : List (Nat × Nat)) : List HostAction :=
  scriptSlots 0 slots ++ scriptWr (.reg .idxInCnt) (BitVec.ofNat 32 slots.length) ++ scriptRun .decblk

end Sys2Proof.Machine
end

