-- ==== Sys2Proof/Safety.lean ====
section
/-! DEFINITION. What the spec promises of every state the MBC can be in, as predicates that claims name. -/

namespace Sys2Proof.Machine

/-! ### The buffers -/

/-- Every written byte belongs to a buffer cell that exists (R43 to R46). -/
def State.memPopulated (s : State) : Prop := ∀ x ∈ s.mem, isCellByte s.params x.1 = true

/-- The written bytes of a 16-bit or a 32-bit cell at `a` are all of it or none of it: a cell is "either a value or
*unwritten*" (R40, R49). -/
def Memory.wholeCell (m : Memory) (width a : Nat) : Prop :=
  ∀ i < width, (m.byte? (a + i)).isSome = (m.byte? a).isSome

/-- Every cell of DIGIT_BUF and every word of GROUP_BUF is a value or unwritten (R40). -/
def State.cellsWhole (s : State) : Prop :=
  (∀ j < Config.maxDigits, s.mem.wholeCell 2 (digitAddr j)) ∧
    ∀ k < s.params.groupEntries, ∀ i < 4, s.mem.wholeCell 4 (groupAddr k i)

/-- The buffers as the spec has them: the list in canonical form, of cells that exist, each whole. -/
structure State.BuffersOk (s : State) : Prop where
  wf : s.mem.wf
  populated : s.memPopulated
  whole : s.cellsWhole

/-! ### PENDING and BUSY -/

/-- A snapshot cannot differ from the live operands (R39): while a command is pending, only CTRL.IE and STATUS.OVR can
have changed since acceptance, STATUS.DONE being 0 all along (R128). -/
def State.snapshotAgrees (s : State) (p : Pending) : Prop :=
  p.word = s.regs.cmd ∧ p.snapshot.mem = s.mem ∧
    { p.snapshot.regs with ie := s.regs.ie, ovr := s.regs.ovr } = s.regs

/-- PENDING, BUSY and `rst` together (R39, R102, R124). -/
structure State.PendingOk (s : State) : Prop where
  /-- PENDING = none exactly when STATUS.BUSY = 0 (R39). -/
  busy : s.regs.busy = s.pending.isSome
  /-- The snapshot agrees with the live operands (R39). -/
  snapshot : ∀ p, s.pending = some p → s.snapshotAgrees p
  /-- A command in progress is not DONE, and the record of the last error is cleared: KIND, DETAIL, ERR and ERR_POS are 0
  (R102). -/
  notDone : s.regs.busy = true →
    s.regs.done = false ∧ s.regs.err = false ∧ s.regs.kind = .none ∧ s.regs.detail = .none ∧
      s.regs.errPos = 0#16 ∧ s.regs.errSlot = 0#2
  /-- While `rst` is asserted, every register holds its reset value and PENDING is none (R124). -/
  inReset : s.rst = true → s.regs = Regs.reset ∧ s.pending = none

/-! ### The error record -/

/-- The error record: ERR is 1 exactly when KIND is not 0 (R24), the kind is the detail's (R110), and with no error there
is no position (R110, R111). -/
structure State.ErrorRecordOk (s : State) : Prop where
  err : s.regs.err = decide (s.regs.kind ≠ .none)
  kind : s.regs.kind = s.regs.detail.kind
  position : s.regs.detail = .none → s.regs.errPos = 0#16 ∧ s.regs.errSlot = 0#2

/-! ### The result registers -/

/-- IDX_OUT holds an index tuple of IDX_OUT_CNT indices below 3252: each used slot its index, the index's word-bank address
and RECOG = 1, each unused slot 0 (R32). At reset the tuple is empty. -/
def State.tupleOk (s : State) : Prop :=
  ∃ t : List Nat, t.length = s.regs.idxOutCnt.toNat ∧ (∀ i ∈ t, i < Config.vocabSize) ∧
    s.regs.idxOut0 = tupleSlot t 0 ∧ s.regs.idxOut1 = tupleSlot t 1 ∧ s.regs.idxOut2 = tupleSlot t 2

/-- BLK_OUT holds BLK_OUT_LEN bytes, at most 4, lanes at or above it 0 (R28, R29). At reset there is none. -/
def State.blockOk (s : State) : Prop :=
  s.regs.blkOutLen.toNat ≤ Config.blockMax ∧
    ∀ i < Config.blockMax, s.regs.blkOutLen.toNat ≤ i → lane s.regs.blkOut i = 0#8

/-- The result registers that no host can write hold results (R28, R29, R32, R33). -/
structure State.ResultsOk (s : State) : Prop where
  tuple : s.tupleOk
  block : s.blockOk

/-! ### What completion leaves -/

/-- The state after an Ok outcome whose result writes leave registers `g` and buffers `m` (R103, R111): BUSY 0, DONE 1,
the error record 0, PENDING none, and nothing else of `s` changed. -/
def State.afterOk (s : State) (g : Regs) (m : Memory) : State :=
  { s with
    regs := { g with
      busy := false, done := true, err := false, kind := .none, detail := .none, errPos := 0#16, errSlot := 0#2 }
    mem := m
    pending := none
    draws := s.draws + 1 }

/-- The state after Error(kind, detail, pos, slot) that leaves the buffers `m` (R103, R111): BUSY 0, DONE 1, ERR 1, the
error recorded, PENDING none, and nothing else of `s` changed. -/
def State.afterError (s : State) (d : Detail) (pos : BitVec 16) (slot : BitVec 2) (m : Memory) : State :=
  { s with
    regs := { s.regs with
      busy := false, done := true, err := true, kind := d.kind, detail := d, errPos := pos, errSlot := slot }
    mem := m
    pending := none
    draws := s.draws + 1 }

/-! ### What the host does -/

/-- The 4-aligned address a transaction at `a` acts on (R42). -/
def wordAddr (a : HostAddr) : Nat := a.toNat - a.toNat % 4

/-- Whether a host statement could reset the MBC: `rst` asserted, a write to CTRL with SRST set, or a write to CTRL of
whatever the script read last (R22, R124, R125). -/
def mayReset : HostAction → Bool
  | .rst level => level
  | .wr a v => decide (wordAddr a = 0x008) && v.getLsbD 1
  | .wrR a => decide (wordAddr a = 0x008)
  | .rd _ => false
  | .expect _ _ => false
  | .wait => false

end Sys2Proof.Machine
end

