-- ==== Sys2Proof/Certificates/Slice0/Obligations.lean ====
section
/-! DEFINITION. The statements for the provers. `State.afterOk` and `State.afterError` (Safety.lean) are the state R103 and
R111 give after a command; everything they do not name is unchanged, so each statement that uses them is a frame too.
No statement rests on a free value: `Config.freeByte`, `freeRead`, `freeCell` and `latency` may be anything. -/

open Sys2Proof Sys2Proof.Machine

/-! ### Encoding -/

/-- Decoding what `encode` writes gives the command back, on words, on bytes and through the opcode table's numbering
(R58, R59, R61). -/
def Obligations.DecodeOfEncode : Prop :=
  ∀ i : Instr, i.wellFormed = true →
    decodeWord (encode i) = i ∧ decode (bytesOfWord (encode i)) = .ok i ∧
      decodeTableWord 32 (encode i).toNat = some i

/-- Every word is the encoding of exactly the command it decodes to (R59, "the decoder is total"). -/
def Obligations.EncodeOfDecode : Prop :=
  ∀ w : Word, (decodeWord w).wellFormed = true ∧ encode (decodeWord w) = w

/-- The opcode map (R59). -/
def Obligations.DecodeFollowsOpcodeMap : Prop :=
  ∀ w : Word,
    (w.toNat = 0 → decodeWord w = .nop) ∧
    (w.toNat = 1 → decodeWord w = .tobase) ∧
    (w.toNat = 2 → decodeWord w = .frombase) ∧
    (w.toNat = 3 → decodeWord w = .encblk) ∧
    (w.toNat = 4 → decodeWord w = .decblk) ∧
    (w.toNat = 5 → decodeWord w = .xlate) ∧
    (w.toNat = 6 → decodeWord w = .encseq) ∧
    (w.toNat = 7 → decodeWord w = .decseq) ∧
    (8 ≤ w.toNat % 16 → w.toNat / 16 = 0 →
      decodeWord w = .badOpReservedOpcode (BitVec.ofNat 4 (w.toNat % 16))) ∧
    (w.toNat / 16 ≠ 0 →
      decodeWord w = .badOpReservedBits (BitVec.ofNat 28 (w.toNat / 16)) (BitVec.ofNat 4 (w.toNat % 16)))

/-- A few words written out from the opcode map, as bytes on the bus, lane 0 first (R48, R59, R106). -/
def Obligations.WrittenWordsDecode : Prop :=
  decode [0x01#8, 0x00#8, 0x00#8, 0x00#8] = .ok .tobase ∧
  decode [0x03#8, 0x00#8, 0x00#8, 0x00#8] = .ok .encblk ∧
  decode [0x07#8, 0x00#8, 0x00#8, 0x00#8] = .ok .decseq ∧
  decode [0x0F#8, 0x00#8, 0x00#8, 0x00#8] = .ok (.badOpReservedOpcode 0xF#4) ∧
  decode [0x13#8, 0x00#8, 0x00#8, 0x00#8] = .ok (.badOpReservedBits 0x1#28 0x3#4) ∧
  decode [0x01#8, 0x00#8, 0x00#8, 0x80#8] = .ok (.badOpReservedBits 0x8000000#28 0x1#4)

/-! ### The step -/

/-- With a command in PENDING whose word's bytes decode to `i`, a step is the completion step `exec i` when no host
transaction is to come before it (its delay is over, or the host has nothing left to do), and the host's turn otherwise
(R103): the delay goes down by one, and the next statement of the script is carried out in that state, by the busy rules
when BUSY = 1 (BusyWritesDropped, BusyReads), and taken off; `wait` reads STATUS and stays in the script while BUSY = 1
(R67). When the completion step comes is the model's choice: notes/assumptions/2.md and 3.md. The script as a field of the
state is the model's choice: notes/assumptions/7.md. -/
def Obligations.StepRunsDecodedCommand : Prop :=
  ∀ (s : State) (p : Pending) (i : Instr), s.pending = some p → decode (bytesOfWord p.word) = .ok i →
    ((p.delay = 0 ∨ s.script = []) → step s = exec i s) ∧
    (p.delay ≠ 0 → ∀ (a : HostAction) (rest : List HostAction), s.script = a :: rest →
      let u : State := { s with pending := some { p with delay := p.delay - 1 } }
      step s = .next s.hostTurn ∧
      (a ≠ .wait → step s = .next { u.perform a with script := rest }) ∧
      (a = .wait → s.rst = false → s.regs.busy = true →
        step s = .next { u with r := s.regs.statusWord, draws := s.draws + 1, script := .wait :: rest }) ∧
      (a = .wait → s.rst = false → s.regs.busy = false →
        step s = .next { u with r := s.regs.statusWord, draws := s.draws + 1, script := rest }))

/-- With no command pending, a step carries out the next statement of the script and takes it off, and with an empty script
nothing moves (R41, R67, R123); `wait` reads STATUS, stays in the script when bit 0 of what it read is 1, and is taken off
when it is 0, which is the case with `rst` released and BUSY = 0 (R67). Writing statements are HostWrite at their address,
of their value or of the value read last (R66), and an edge of `rst` is HardwareReset's. The script as a field of the state
is the model's choice: notes/assumptions/7.md. -/
def Obligations.IdleStepServesHost : Prop :=
  (∀ s : State, s.pending = none →
    (s.script = [] → step s = .next s) ∧
    ∀ (a : HostAction) (rest : List HostAction), s.script = a :: rest →
      (a ≠ .wait → step s = .next { s.perform a with script := rest }) ∧
      (a = .wait →
        step s = .next { s.perform (.rd 0x00010#20) with
          script := if (s.hostRead 0x00010#20).getLsbD 0 then .wait :: rest else rest } ∧
        (s.rst = false → s.regs.busy = false →
          step s = .next { s.perform (.rd 0x00010#20) with script := rest }))) ∧
  ∀ s : State,
    (∀ a v, s.perform (.wr a v) = s.hostWrite a v) ∧ (∀ a, s.perform (.wrR a) = s.hostWrite a s.r) ∧
    ∀ level, s.perform (.rst level) = s.setRst level

/-- A word put where the engine finds its command is decoded and run by the very next step (R17, R103), on the registers and
the buffers as accepted (R39, R102); and what any pending command reads is its snapshot (R39, R103). That `withFetchWord`
stands for a CMD write is the model's choice: notes/assumptions/7.md; what the snapshot holds is its reading of R39:
notes/assumptions/9.md. -/
def Obligations.FetchedWordRunsNext : Prop :=
  (∀ (s : State) (p : Pending), s.pending = some p → s.operands = p.snapshot) ∧
  ∀ (s : State) (w : Word),
    let t := s.withFetchWord 32 w.toNat
    let g : Regs := { s.regs with
      cmd := w, busy := true, done := false, err := false, kind := .none, detail := .none,
      errPos := 0#16, errSlot := 0#2 }
    step t = exec (decodeWord w) t ∧
      t.operands.regs = g ∧ t.operands.mem = s.mem ∧
      t = { s with rst := false, regs := g, pending := some ⟨w, ⟨g, s.mem⟩, 0⟩ }

/-- Every state has a next step: the machine never stops (93_implementation_defined.md, `stuck`; R116). -/
def Obligations.StepNeverStops : Prop := ∀ s : State, ∃ t : State, step s = .next t

/-- A command completes within its latency: with a command pending and a script that cannot reset the block (no `rst`, no
write to CTRL with SRST set, no write of `r` to CTRL), the completion step has been taken after at most `delay + 1` steps
(R103: "every accepted command completes unless a reset intervenes"). The latency as a number in PENDING is the model's
choice: notes/assumptions/2.md and 3.md. -/
def Obligations.CommandCompletesWithinLatency : Prop :=
  ∀ (s : State) (p : Pending), s.PendingOk → s.pending = some p →
    (∀ a ∈ s.script, mayReset a = false) →
    ∃ n, n ≤ p.delay + 1 ∧ ∃ t : State, Sys2Proof.core.run n s = .next t ∧
      t.pending = none ∧ t.regs.busy = false ∧ t.regs.done = true ∧ t.regs.cmd = p.word

/-! ### Invariants -/

/-- The reset state meets every invariant below. -/
def Obligations.ResetMeetsInvariants : Prop :=
  State.reset.BuffersOk ∧ State.reset.PendingOk ∧ State.reset.ErrorRecordOk ∧ State.reset.ResultsOk

/-- A step keeps the buffers in canonical form, within the populated cells, each cell a value or unwritten (R40, R43). -/
def Obligations.BuffersKeptByStep : Prop :=
  ∀ s t : State, s.BuffersOk → step s = .next t → t.BuffersOk

/-- A step keeps PENDING = none exactly when BUSY = 0, the snapshot equal to the live operands, DONE, ERR, KIND, DETAIL and
ERR_POS 0 while busy, and every register at its reset value while `rst` is asserted (R39, R102, R124). That the snapshot
holds registers and buffers is the model's reading: notes/assumptions/9.md. -/
def Obligations.PendingKeptByStep : Prop :=
  ∀ s t : State, s.PendingOk → step s = .next t → t.PendingOk

/-- A step keeps ERR = 1 exactly when KIND is not 0, the kind that of the detail, and no position without an error (R24,
R110). -/
def Obligations.ErrorRecordKeptByStep : Prop :=
  ∀ s t : State, s.ErrorRecordOk → step s = .next t → t.ErrorRecordOk

/-- A step keeps IDX_OUT an index tuple with its word-bank addresses and BLK_OUT a block with its unused lanes 0 (R28, R29,
R32, R33). -/
def Obligations.ResultsKeptByStep : Prop :=
  ∀ s t : State, s.ResultsOk → step s = .next t → t.ResultsOk

/-! ### The Digit Converter -/

/-- `toBase` (R68): its equations, every digit below the radix, no leading zero, and the least length. -/
def Obligations.ToBaseDigits : Prop :=
  ∀ b : Nat, 2 ≤ b →
    toBase b 0 = [] ∧
    ∀ n : Nat, 0 < n →
      toBase b n = toBase b (n / b) ++ [n % b] ∧
      (∀ d ∈ toBase b n, d < b) ∧
      (toBase b n).head? ≠ some 0 ∧
      n < b ^ (toBase b n).length ∧
      ∀ k : Nat, n < b ^ k → (toBase b n).length ≤ k

/-- `fromBase` reads a big-endian sequence, and leading zeros contribute no value (R70). -/
def Obligations.FromBaseBigEndian : Prop :=
  ∀ b : Nat, fromBase b [] = 0 ∧
    (∀ (ds : List Nat) (d : Nat), fromBase b (ds ++ [d]) = fromBase b ds * b + d) ∧
    ∀ (z : Nat) (ds : List Nat), fromBase b (List.replicate z 0 ++ ds) = fromBase b ds

/-- The two converters are mutual near-inverses (R71). -/
def Obligations.ConvertersNearInverse : Prop :=
  ∀ b : Nat, 2 ≤ b →
    (∀ n : Nat, fromBase b (toBase b n) = n) ∧
    ∀ ds : List Nat, (∀ d ∈ ds, d < b) →
      toBase b (fromBase b ds) = ds.drop (ds.takeWhile (fun d => d == 0)).length

/-- TOBASE (R74), R73's check first: the digits of VAL, most significant first, in DIGIT_BUF, zeros after them, and their
number in NDIG. -/
def Obligations.TobaseResult : Prop :=
  decodeWord 0x00000001#32 = .tobase ∧
  ∀ s : State,
    (s.operands.regs.base.toNat < 2 → exec .tobase s = .next (s.afterError .baseRange 0#16 0#2 s.mem)) ∧
    (2 ≤ s.operands.regs.base.toNat →
      let ds := toBase s.operands.regs.base.toNat
        (s.operands.regs.valHi.toNat * 2 ^ 32 + s.operands.regs.valLo.toNat)
      ∃ (n : BitVec 7) (m : Memory),
        exec .tobase s = .next (s.afterOk { s.regs with ndig := n } m) ∧
        n.toNat = ds.length ∧ ds.length ≤ 64 ∧
        (∀ j, j < 64 → ∀ draw, (m.cell16 draw (0x100 + 4 * j)).toNat = ds.getD j 0) ∧
        (∀ a, (∀ j, j < 64 → a ≠ 0x100 + 4 * j ∧ a ≠ 0x100 + 4 * j + 1) → m.byte? a = s.mem.byte? a))

/-- FROMBASE (R75): its four errors in their order, the lowest digit out of range reported, and else the value of the
digits in VAL. -/
def Obligations.FrombaseResult : Prop :=
  decodeWord 0x00000002#32 = .frombase ∧
  ∀ s : State,
    let b := s.operands.regs.base.toNat
    let n := s.operands.regs.ndig.toNat
    let ds := (List.range n).map (fun j => (s.operands.mem.cell16 s.draws (0x100 + 4 * j)).toNat)
    (b < 2 → exec .frombase s = .next (s.afterError .baseRange 0#16 0#2 s.mem)) ∧
    (2 ≤ b → 64 < n → exec .frombase s = .next (s.afterError .digitCount 0#16 0#2 s.mem)) ∧
    (2 ≤ b → n ≤ 64 → ∀ j, j < n → b ≤ ds.getD j 0 → (∀ i, i < j → ds.getD i 0 < b) →
      exec .frombase s = .next (s.afterError .digitRange (BitVec.ofNat 16 j) 0#2 s.mem)) ∧
    (2 ≤ b → n ≤ 64 → (∀ d ∈ ds, d < b) → 2 ^ 64 ≤ fromBase b ds →
      exec .frombase s = .next (s.afterError .valueOverflow 0#16 0#2 s.mem)) ∧
    (2 ≤ b → n ≤ 64 → (∀ d ∈ ds, d < b) → fromBase b ds < 2 ^ 64 →
      ∃ lo hi : Word,
        exec .frombase s = .next (s.afterOk { s.regs with valLo := lo, valHi := hi } s.mem) ∧
        hi.toNat * 2 ^ 32 + lo.toNat = fromBase b ds)

/-! ### The Block Codec -/

/-- The block value: little-endian, below 256 to the length (R76). -/
def Obligations.BlockValueLittleEndian : Prop :=
  ∀ bs : List Byte,
    blockValue bs = ((List.range bs.length).map (fun i => (bs.getD i 0#8).toNat * 256 ^ i)).sum ∧
    blockValue bs = fromBase 256 (bs.map BitVec.toNat).reverse ∧
    blockValue bs < 256 ^ bs.length

/-- Padding never truncates: the spec's derived rule R78. -/
def Obligations.PaddingNeverTruncates : Prop :=
  ∀ bs : List Byte, 1 ≤ bs.length → bs.length ≤ 4 →
    (toBase 1626 (blockValue bs)).length ≤ canonLen bs.length

/-- What `encodeBlock` gives (R80): an error for a length 0 or above 4; else the digits of the block value at the canonical
length (R77), the last one moved to bank B exactly for a 3-byte block. -/
def Obligations.EncodeBlockDigits : Prop :=
  ∀ bs : List Byte,
    (bs.length = 0 ∨ 4 < bs.length → encodeBlock bs = .error ⟨.blockLen, 0#16, 0#2⟩) ∧
    (1 ≤ bs.length → bs.length ≤ 4 →
      ∃ ds : List Nat, (∀ d ∈ ds, d < 1626) ∧ fromBase 1626 ds = blockValue bs ∧
        ds.length = (if bs.length = 4 then 3 else bs.length) ∧
        encodeBlock bs = .ok (if bs.length = 3 then ds.take 2 ++ [ds.getD 2 0 + 1626] else ds))

/-- Properties of `encodeBlock`, the spec's derived rule R81: length determinism, range, bank separation and digit bounds, each bound reached. -/
def Obligations.EncodeBlockProperties : Prop :=
  (∀ bs : List Byte, 1 ≤ bs.length → bs.length ≤ 4 →
    ∃ t : List Nat, encodeBlock bs = .ok t ∧
      (bs.length = 1 → t.length = 1) ∧ (bs.length = 2 → t.length = 2) ∧
      (bs.length = 3 ∨ bs.length = 4 → t.length = 3) ∧
      (∀ i ∈ t, i < 3252) ∧
      (bs.length = 3 → 1626 ≤ t.getD 2 0 ∧ t.getD 0 0 < 1626 ∧ t.getD 1 0 < 1626) ∧
      (bs.length ≠ 3 → ∀ i ∈ t, i < 1626) ∧
      (bs.length = 1 → t.getD 0 0 ≤ 255) ∧ (bs.length = 2 → t.getD 0 0 ≤ 40) ∧
      (bs.length = 3 → t.getD 0 0 ≤ 6) ∧ (bs.length = 4 → t.getD 0 0 ≤ 1624)) ∧
  encodeBlock [0xFF#8] = .ok [255] ∧
  encodeBlock [0xFF#8, 0xFF#8] = .ok [40, 495] ∧
  encodeBlock [0xFF#8, 0xFF#8, 0xFF#8] = .ok [6, 562, 1773] ∧
  encodeBlock [0xFF#8, 0xFF#8, 0xFF#8, 0xFF#8] = .ok [1624, 807, 489]

/-- The round trip of a block, the spec's derived rule R84, whatever the slots at and above the length hold. -/
def Obligations.BlockRoundTrip : Prop :=
  ∀ bs : List Byte, 1 ≤ bs.length → bs.length ≤ 4 →
    ∃ t : List Nat, encodeBlock bs = .ok t ∧
      ∀ unused : List CodecSlot, decodeBlock t.length (t.map (fun i => (i, true)) ++ unused) = .ok bs

/-- `decodeBlock` succeeds exactly on the image of `encodeBlock`, so `encodeBlock` is injective: the spec's derived rule
R85. -/
def Obligations.DecodeBlockExactImage : Prop :=
  (∀ (c : Nat) (s : List CodecSlot), s.length = 3 → (∀ x ∈ s.take c, x.2 = true) →
    let ix := (s.take c).map Prod.fst
    ((∃ bs, decodeBlock c s = .ok bs) ↔
      (c = 1 ∧ ix.getD 0 0 ≤ 255) ∨
      (c = 2 ∧ (∀ i ∈ ix, i < 1626) ∧ fromBase 1626 ix < 2 ^ 16) ∨
      (c = 3 ∧ ix.getD 0 0 < 1626 ∧ ix.getD 1 0 < 1626 ∧ 1626 ≤ ix.getD 2 0 ∧ ix.getD 2 0 < 3252 ∧
        fromBase 1626 (ix.take 2 ++ [ix.getD 2 0 - 1626]) < 2 ^ 24) ∨
      (c = 3 ∧ (∀ i ∈ ix, i < 1626) ∧ fromBase 1626 ix < 2 ^ 32)) ∧
    ∀ bs, decodeBlock c s = .ok bs → ∀ bs', encodeBlock bs' = .ok ix ↔ bs' = bs) ∧
  ∀ (b₁ b₂ : List Byte) (t : List Nat), encodeBlock b₁ = .ok t → encodeBlock b₂ = .ok t → b₁ = b₂

/-- The outcomes of `decodeBlock` in their order (R82, R83): group length, recognition (lowest slot first), bank-B position
(lowest slot first), digit range, value overflow (exactly when the value is 256^outLen or more); else the outLen bytes of
the value. -/
def Obligations.DecodeBlockOutcomes : Prop :=
  ∀ (c : Nat) (s : List CodecSlot), s.length = 3 →
    let idx := fun j => (s.getD j (0, false)).1
    let recog := fun j => (s.getD j (0, false)).2
    let offset := decide (c = 3 ∧ 1626 ≤ idx 2)
    let outLen := if c = 3 then (if offset then 3 else 4) else c
    let v := fromBase 1626 ((List.range c).map (fun j => if offset ∧ j = 2 then idx j - 1626 else idx j))
    (c = 0 ∨ 3 < c → decodeBlock c s = .error ⟨.groupLen, 0#16, 0#2⟩) ∧
    (1 ≤ c → c ≤ 3 →
      (∀ j, j < c → recog j = false → (∀ i, i < j → recog i = true) →
        decodeBlock c s = .error ⟨.unrecognized, 0#16, BitVec.ofNat 2 j⟩) ∧
      ((∀ j, j < c → recog j = true) →
        (∀ j, j < c → ¬ (c = 3 ∧ j = 2) → 1626 ≤ idx j → (∀ i, i < j → idx i < 1626) →
          decodeBlock c s = .error ⟨.bankBPosition, 0#16, BitVec.ofNat 2 j⟩) ∧
        ((∀ j, j < c → ¬ (c = 3 ∧ j = 2) → idx j < 1626) →
          (c = 3 → 3252 ≤ idx 2 → decodeBlock c s = .error ⟨.digitRange, 0#16, 2#2⟩) ∧
          ((c = 3 → idx 2 < 3252) →
            (256 ^ outLen ≤ v → decodeBlock c s = .error ⟨.valueOverflow, 0#16, 0#2⟩) ∧
            (v < 256 ^ outLen →
              ∃ bs, decodeBlock c s = .ok bs ∧ bs.length = outLen ∧ blockValue bs = v)))))

/-- ENCBLK (R86): the slots of the tuple of the block in the low BLK_LEN lanes of BLK_IN, with their word-bank addresses
and RECOG = 1; unused slots 0. -/
def Obligations.EncblkResult : Prop :=
  decodeWord 0x00000003#32 = .encblk ∧
  ∀ s : State,
    let n := s.operands.regs.blkLen.toNat
    (n = 0 ∨ 4 < n → exec .encblk s = .next (s.afterError .blockLen 0#16 0#2 s.mem)) ∧
    (1 ≤ n → n ≤ 4 →
      ∃ (t : List Nat) (w0 w1 w2 : Word) (c : BitVec 2),
        encodeBlock ((List.range n).map (fun i => s.operands.regs.blkIn.extractLsb' (8 * i) 8)) = .ok t ∧
        exec .encblk s = .next
          (s.afterOk { s.regs with idxOut0 := w0, idxOut1 := w1, idxOut2 := w2, idxOutCnt := c } s.mem) ∧
        c.toNat = t.length ∧
        ∀ j, j < 3 → ([w0, w1, w2].getD j 0#32).toNat =
          if j < t.length then t.getD j 0 + bankAddr (t.getD j 0) * 2 ^ 16 + 2 ^ 31 else 0)

/-- DECBLK (R87): the error of `decodeBlock` on the slots of IDX_IN, with POS 0; else its bytes in the low lanes of BLK_OUT,
the other lanes 0. -/
def Obligations.DecblkResult : Prop :=
  decodeWord 0x00000004#32 = .decblk ∧
  ∀ s : State,
    let g := s.operands.regs
    let c := g.idxInCnt.toNat
    let slots : List CodecSlot :=
      [(g.idxIn0.idx.toNat, g.idxIn0.recog), (g.idxIn1.idx.toNat, g.idxIn1.recog), (g.idxIn2.idx.toNat, g.idxIn2.recog)]
    (∀ e, decodeBlock c slots = .error e → exec .decblk s = .next (s.afterError e.detail 0#16 e.slot s.mem)) ∧
    (∀ bs, decodeBlock c slots = .ok bs →
      ∃ (w : Word) (n : BitVec 3),
        exec .decblk s = .next (s.afterOk { s.regs with blkOut := w, blkOutLen := n } s.mem) ∧
        n.toNat = bs.length ∧ 1 ≤ bs.length ∧ bs.length ≤ 4 ∧
        ∀ i, i < 4 → w.extractLsb' (8 * i) 8 = bs.getD i 0#8)

/-! ### Word-bank addresses -/

/-- The word-bank address (R89): bank and row; no MBC address has a row of 1626 or more; and its inverse, the spec's
derived rule R90. -/
def Obligations.BankAddressInverse : Prop :=
  (∀ i, i < 3252 → bankAddr i < 2 ^ 12 ∧ bankAddr i / 2 ^ 11 = (if i < 1626 then 0 else 1) ∧
    bankAddr i % 2 ^ 11 = (if i < 1626 then i else i - 1626) ∧ bankAddr i % 2 ^ 11 < 1626) ∧
  ∀ a, a < 2 ^ 12 → a % 2 ^ 11 < 1626 →
    a / 2 ^ 11 * 1626 + a % 2 ^ 11 < 3252 ∧ bankAddr (a / 2 ^ 11 * 1626 + a % 2 ^ 11) = a ∧
      indexOfBankAddr a = a / 2 ^ 11 * 1626 + a % 2 ^ 11

/-- XLATE (R94): the slot word of the index in IDX_IN0 in IDX_OUT0, the other two slots 0, the count 1. -/
def Obligations.XlateResult : Prop :=
  decodeWord 0x00000005#32 = .xlate ∧
  ∀ s : State,
    let i := s.operands.regs.idxIn0.idx.toNat
    (3252 ≤ i → exec .xlate s = .next (s.afterError .indexRange 0#16 0#2 s.mem)) ∧
    (i < 3252 →
      ∃ w : Word,
        exec .xlate s = .next
          (s.afterOk { s.regs with idxOut0 := w, idxOut1 := 0#32, idxOut2 := 0#32, idxOutCnt := 1#2 } s.mem) ∧
        w.toNat = i + bankAddr i * 2 ^ 16 + 2 ^ 31)

/-! ### Sequences -/

/-- `partition` (R95); that `encodeBlock` never fails on one of its blocks is the spec's own inference there. -/
def Obligations.PartitionBlocks : Prop :=
  ∀ bs : List Byte,
    (partition bs).length = (bs.length + 3) / 4 ∧
    (∀ k, k < (partition bs).length → (partition bs).getD k [] = (bs.drop (4 * k)).take 4) ∧
    (partition bs).flatten = bs ∧
    (∀ b ∈ partition bs, 1 ≤ b.length ∧ b.length ≤ 4) ∧
    (∀ k, k + 1 < (partition bs).length → ((partition bs).getD k []).length = 4) ∧
    ∀ b ∈ partition bs, ∃ t, encodeBlock b = .ok t

/-- ENCSEQ (R98): each block of BYTE_BUF[0..N) encoded into its group entry, the group count in GRP_CNT, and every byte
outside the entries as it was. -/
def Obligations.EncseqResult : Prop :=
  decodeWord 0x00000006#32 = .encseq ∧
  ∀ s : State,
    let n := s.operands.regs.seqLen.toNat
    (s.params.bufBytes < n → exec .encseq s = .next (s.afterError .seqRange 0#16 0#2 s.mem)) ∧
    (n ≤ s.params.bufBytes →
      ∃ (m : Memory) (g : BitVec 16),
        exec .encseq s = .next (s.afterOk { s.regs with grpCnt := g } m) ∧
        g.toNat = (n + 3) / 4 ∧
        (∀ k, k < (n + 3) / 4 →
          ∃ t : List Nat,
            encodeBlock ((List.range (min 4 (n - 4 * k))).map
              (fun i => s.operands.mem.byteAt s.draws (0x10000 + (4 * k + i)))) = .ok t ∧
            ∀ draw,
              (m.cell32 draw (0x40000 + 16 * k)).toNat = t.length ∧
              ∀ j, j < 3 → (m.cell32 draw (0x40000 + 16 * k + 4 + 4 * j)).toNat =
                if j < t.length then t.getD j 0 + bankAddr (t.getD j 0) * 2 ^ 16 + 2 ^ 31 else 0) ∧
        (∀ a, a < 0x40000 ∨ 0x40000 + 16 * ((n + 3) / 4) ≤ a → m.byte? a = s.mem.byte? a))

/-- DECSEQ (R99): SEQ_RANGE; or every group decoded, the bytes joined in BYTE_BUF from 0 on, their number in SEQ_LEN and
every other byte as it was; or the error of the lowest group that fails, with its index in POS. -/
def Obligations.DecseqResult : Prop :=
  decodeWord 0x00000007#32 = .decseq ∧
  ∀ s : State,
    let n := s.operands.regs.grpCnt.toNat
    let word := fun k i => s.operands.mem.cell32 s.draws (0x40000 + 16 * k + 4 * i)
    let slot := fun k j => ((word k (j + 1)).toNat % 2 ^ 12, (word k (j + 1)).getLsbD 31)
    let group := fun k => decodeBlock ((word k 0).toNat % 4) [slot k 0, slot k 1, slot k 2]
    (s.params.groupEntries < n → exec .decseq s = .next (s.afterError .seqRange 0#16 0#2 s.mem)) ∧
    (n ≤ s.params.groupEntries → ∀ f : Nat → List Byte, (∀ k, k < n → group k = .ok (f k)) →
      let out := (List.range n).flatMap f
      ∃ (m : Memory) (len : BitVec 16),
        exec .decseq s = .next (s.afterOk { s.regs with seqLen := len } m) ∧
        len.toNat = out.length ∧ out.length ≤ 4 * n ∧
        (∀ a, a < out.length → m.byte? (0x10000 + a) = out[a]?) ∧
        (∀ a, a < 0x10000 ∨ 0x10000 + out.length ≤ a → m.byte? a = s.mem.byte? a)) ∧
    (n ≤ s.params.groupEntries → ∀ k e, k < n → group k = .error e → (∀ i, i < k → ∃ bs, group i = .ok bs) →
      ∃ m : Memory,
        exec .decseq s = .next (s.afterError e.detail (BitVec.ofNat 16 k) e.slot m) ∧
        (∀ a, a < 0x10000 ∨ 0x10000 + 4 * n ≤ a → m.byte? a = s.mem.byte? a))

/-- After a DECSEQ that ends in error (R100): no register but STATUS and ERR_POS changes; with SEQ_RANGE no buffer byte
does; otherwise only bytes of BYTE_BUF[0..4 GRP_CNT) may change, to anything; GROUP_BUF never does. -/
def Obligations.DecseqErrorLeaves : Prop :=
  ∀ s t : State, exec .decseq s = .next t → t.regs.err = true →
    t.regs = { s.regs with
      busy := t.regs.busy, done := t.regs.done, err := t.regs.err, kind := t.regs.kind, detail := t.regs.detail,
      errPos := t.regs.errPos, errSlot := t.regs.errSlot } ∧
    (t.regs.detail = .seqRange → t.mem = s.mem) ∧
    (∀ a, a < 0x10000 ∨ 0x10000 + 4 * s.operands.regs.grpCnt.toNat ≤ a → t.mem.byte? a = s.mem.byte? a) ∧
    ∀ k i draw, t.mem.cell32 draw (groupAddr k i) = s.mem.cell32 draw (groupAddr k i)

/-- The sequence round trip, the spec's derived rule R101: ENCSEQ, then DECSEQ with no host write between, gives the bytes back. -/
def Obligations.SequenceRoundTrip : Prop :=
  ∀ (s t u : State) (d₁ d₂ : Nat),
    s.regs.seqLen.toNat ≤ s.params.bufBytes →
    (∀ a, a < s.regs.seqLen.toNat → (s.mem.byte? (0x10000 + a)).isSome = true) →
    exec .encseq (s.accept 0x00000006#32 d₁) = .next t →
    exec .decseq (t.accept 0x00000007#32 d₂) = .next u →
    u.regs.err = false ∧ u.regs.seqLen = s.regs.seqLen ∧
      ∀ a, a < s.regs.seqLen.toNat → u.mem.byte? (0x10000 + a) = s.mem.byte? (0x10000 + a)

/-! ### Control commands, completion and errors -/

/-- NOP (R105): Ok, and nothing else. -/
def Obligations.NopResult : Prop :=
  decodeWord 0x00000000#32 = .nop ∧
  ∀ s : State, exec .nop s = .next (s.afterOk s.regs s.mem) ∧
    (s.regs.ovr = false → (s.afterOk s.regs s.mem).regs.statusWord = 0x00000002#32)

/-- BAD_OP (R106): every reserved word, of either class, completes with InvalidArgument/BAD_OP and writes nothing else;
STATUS then reads 0x0000_011A. That the terms of the two constructors which stand for no word (an opcode below 8, bits all
0) complete so too is the model's choice: notes/assumptions/14.md. -/
def Obligations.BadOpResult : Prop :=
  (∀ (w : Word) (s : State), 8 ≤ w.toNat →
    exec (decodeWord w) s = .next (s.afterError .badOp 0#16 0#2 s.mem) ∧
      (s.regs.ovr = false → (s.afterError .badOp 0#16 0#2 s.mem).regs.statusWord = 0x0000011A#32)) ∧
  ∀ s : State,
    (∀ op, exec (.badOpReservedOpcode op) s = .next (s.afterError .badOp 0#16 0#2 s.mem)) ∧
    ∀ mbz op, exec (.badOpReservedBits mbz op) s = .next (s.afterError .badOp 0#16 0#2 s.mem)

/-- Completion of any command (R103, R111): it answers a next state, with BUSY 0, DONE 1, PENDING none and the error record
either clear or of an error whose kind is its detail's. The registers that no command writes are as before, and each of the
others is as before but for the commands that have it as a result (R51): NDIG of TOBASE, VAL of FROMBASE, IDX_OUT and
IDX_OUT_CNT of ENCBLK and XLATE, BLK_OUT and BLK_OUT_LEN of DECBLK, GRP_CNT of ENCSEQ, SEQ_LEN of DECSEQ; so no command
changes a register it has as an operand. That the terms which stand for no word complete too is the model's choice:
notes/assumptions/14.md. -/
def Obligations.CompletionRecord : Prop :=
  ∀ (i : Instr) (s : State), ∃ t : State, exec i s = .next t ∧
    t.pending = none ∧ t.regs.busy = false ∧ t.regs.done = true ∧
    t.regs.ie = s.regs.ie ∧ t.regs.ovr = s.regs.ovr ∧ t.regs.cmd = s.regs.cmd ∧
    t.regs.blkIn = s.regs.blkIn ∧ t.regs.blkLen = s.regs.blkLen ∧
    t.regs.idxIn0 = s.regs.idxIn0 ∧ t.regs.idxIn1 = s.regs.idxIn1 ∧ t.regs.idxIn2 = s.regs.idxIn2 ∧
    t.regs.idxInCnt = s.regs.idxInCnt ∧ t.regs.base = s.regs.base ∧
    (i ≠ .tobase → t.regs.ndig = s.regs.ndig) ∧
    (i ≠ .frombase → t.regs.valLo = s.regs.valLo ∧ t.regs.valHi = s.regs.valHi) ∧
    (i ≠ .encblk → i ≠ .xlate →
      t.regs.idxOut0 = s.regs.idxOut0 ∧ t.regs.idxOut1 = s.regs.idxOut1 ∧ t.regs.idxOut2 = s.regs.idxOut2 ∧
        t.regs.idxOutCnt = s.regs.idxOutCnt) ∧
    (i ≠ .decblk → t.regs.blkOut = s.regs.blkOut ∧ t.regs.blkOutLen = s.regs.blkOutLen) ∧
    (i ≠ .encseq → t.regs.grpCnt = s.regs.grpCnt) ∧
    (i ≠ .decseq → t.regs.seqLen = s.regs.seqLen) ∧
    t.params = s.params ∧ t.rst = s.rst ∧ t.script = s.script ∧ t.r = s.r ∧ t.checksFailed = s.checksFailed ∧
    t.ErrorRecordOk

/-- A command that ends in error writes no result (R104, R113): but for STATUS and ERR_POS every register is as it was, and
but for DECSEQ so is every buffer. -/
def Obligations.ErrorWritesNoResult : Prop :=
  ∀ (i : Instr) (s t : State), exec i s = .next t → t.regs.err = true →
    t.regs = { s.regs with
      busy := t.regs.busy, done := t.regs.done, err := t.regs.err, kind := t.regs.kind, detail := t.regs.detail,
      errPos := t.regs.errPos, errSlot := t.regs.errSlot } ∧
    (i ≠ .decseq → t.mem = s.mem)

/-- Acceptance of a CMD write (R102), and that a CMD write while BUSY = 1 sets OVR only (R128). That the snapshot is of the
registers and the buffers is the model's reading: notes/assumptions/9.md; the delay beside it is the model's choice:
notes/assumptions/2.md. -/
def Obligations.AcceptanceEffect : Prop :=
  ∀ (s : State) (w : Word), s.rst = false →
    (s.regs.busy = false →
      let g : Regs := { s.regs with
        cmd := w, busy := true, done := false, err := false, kind := .none, detail := .none,
        errPos := 0#16, errSlot := 0#2 }
      ∃ d : Nat, s.hostWrite 0x0000C#20 w =
        { s with regs := g, pending := some ⟨w, ⟨g, s.mem⟩, d⟩, draws := s.draws + 1 }) ∧
    (s.regs.busy = true → s.hostWrite 0x0000C#20 w = { s with regs := { s.regs with ovr := true } })

/-- The codes of the details and kinds as STATUS reads them after an error (R24, R109, R110). -/
def Obligations.ErrorCodes : Prop :=
  ∀ (s : State) (pos : BitVec 16) (slot : BitVec 2) (m : Memory), s.regs.ovr = false →
    let status := fun d => (s.afterError d pos slot m).regs.statusWord
    status .badOp = 0x11A#32 ∧ status .baseRange = 0x21A#32 ∧ status .digitRange = 0x31A#32 ∧
    status .digitCount = 0x41A#32 ∧ status .valueOverflow = 0x51A#32 ∧ status .blockLen = 0x61A#32 ∧
    status .groupLen = 0x71A#32 ∧ status .indexRange = 0x81A#32 ∧ status .seqRange = 0x91A#32 ∧
    status .unrecognized = 0xA2A#32 ∧ status .bankBPosition = 0xB3A#32 ∧
    (∀ d, (s.afterError d pos slot m).regs.errPosWord.toNat = pos.toNat + slot.toNat * 2 ^ 16)

/-! ### The host port -/

/-- Address bits [1:0] are ignored (R42). -/
def Obligations.LowAddressBitsIgnored : Prop :=
  ∀ (s : State) (a b : HostAddr) (d : Word), a.toNat / 4 = b.toNat / 4 →
    s.hostRead a = s.hostRead b ∧ s.hostWrite a d = s.hostWrite b d

/-- A read changes no register, no buffer and no PENDING (R50): only the port's data and the counter of free draws, the
model's own (notes/assumptions/5.md and 6.md). So of all three statements that read: `rd`; `expect`, which also counts the
check that does not hold, "not a hardware action" (R66; the count: notes/assumptions/7.md); and `wait`, one `rd STATUS` of
its loop (R67). -/
def Obligations.ReadsHaveNoSideEffect : Prop :=
  ∀ (s : State) (a : HostAddr) (v : Word),
    s.perform (.rd a) = { s with r := s.hostRead a, draws := s.draws + 1 } ∧
    (s.hostRead a = v → s.perform (.expect a v) = { s with r := s.hostRead a, draws := s.draws + 1 }) ∧
    (s.hostRead a ≠ v → s.perform (.expect a v) =
      { s with r := s.hostRead a, draws := s.draws + 1, checksFailed := s.checksFailed + 1 }) ∧
    s.perform .wait = { s with r := s.hostRead 0x00010#20, draws := s.draws + 1 }

/-- Each NAME of a script stands at the address the spec gives it, and there stands its register or buffer word: the offsets
of R19 and the windows of R43 to R46, as numbers; a literal address is itself (R66). -/
def Obligations.NamesReachTheirTargets : Prop :=
  ∀ p : Config.Params,
    (∀ n : RegName,
      let offset : Nat := match n with
        | .id => 0x000
        | .param => 0x004
        | .ctrl => 0x008
        | .cmd => 0x00C
        | .status => 0x010
        | .errPos => 0x014
        | .blkIn => 0x020
        | .blkLen => 0x024
        | .blkOut => 0x028
        | .blkOutLen => 0x02C
        | .idxIn0 => 0x030
        | .idxIn1 => 0x034
        | .idxIn2 => 0x038
        | .idxInCnt => 0x03C
        | .idxOut0 => 0x040
        | .idxOut1 => 0x044
        | .idxOut2 => 0x048
        | .idxOutCnt => 0x04C
        | .base => 0x050
        | .valLo => 0x054
        | .valHi => 0x058
        | .ndig => 0x05C
        | .seqLen => 0x060
        | .grpCnt => 0x064
      regOffset n = offset ∧ (scriptAddr (.reg n)).toNat = offset ∧
        target p (BitVec.ofNat 20 offset) = .reg n) ∧
    (∀ j, j < 64 → (scriptAddr (.digit j)).toNat = 0x100 + 4 * j ∧
      target p (BitVec.ofNat 20 (0x100 + 4 * j)) = .digit j) ∧
    (∀ w, 4 * w < p.bufBytes → (scriptAddr (.byteWord w)).toNat = 0x10000 + 4 * w ∧
      target p (BitVec.ofNat 20 (0x10000 + 4 * w)) = .bytes w) ∧
    (∀ k, k < p.groupEntries →
      ((scriptAddr (.hdr k)).toNat = 0x40000 + 16 * k ∧
        target p (BitVec.ofNat 20 (0x40000 + 16 * k)) = .group k 0) ∧
      ∀ j, j < 3 → (scriptAddr (.slot k j)).toNat = 0x40000 + 16 * k + 4 * (j + 1) ∧
        target p (BitVec.ofNat 20 (0x40000 + 16 * k + 4 * (j + 1))) = .group k (j + 1)) ∧
    ∀ a, scriptAddr (.lit a) = a

/-- A DIGIT_BUF register stores bits [15:0] and reads them back below zeros; every other byte is as it was (R44). The
bytes that hold a cell are the model's choice: notes/assumptions/13.md. -/
def Obligations.DigitBufStores : Prop :=
  ∀ (s : State) (j : Nat) (d : Word), s.rst = false → s.regs.busy = false → j < 64 →
    ∃ m : Memory, s.hostWrite (BitVec.ofNat 20 (0x100 + 4 * j)) d = { s with mem := m } ∧
      ({ s with mem := m } : State).hostRead (BitVec.ofNat 20 (0x100 + 4 * j)) = d &&& 0xFFFF#32 ∧
      (∀ draw, m.cell16 draw (0x100 + 4 * j) = d.extractLsb' 0 16) ∧
      ∀ a, a ≠ 0x100 + 4 * j → a ≠ 0x100 + 4 * j + 1 → m.byte? a = s.mem.byte? a

/-- A word of BYTE_BUF is its four bytes, lane i at offset 4w + i (R45): what a read returns, and what a write stores. -/
def Obligations.ByteBufStores : Prop :=
  ∀ (s : State) (w : Nat) (d : Word), s.rst = false → s.regs.busy = false → 4 * w < s.params.bufBytes →
    (s.hostRead (BitVec.ofNat 20 (0x10000 + 4 * w))).toNat =
      (s.mem.byteAt s.draws (0x10000 + 4 * w)).toNat + (s.mem.byteAt s.draws (0x10000 + 4 * w + 1)).toNat * 2 ^ 8 +
        (s.mem.byteAt s.draws (0x10000 + 4 * w + 2)).toNat * 2 ^ 16 +
        (s.mem.byteAt s.draws (0x10000 + 4 * w + 3)).toNat * 2 ^ 24 ∧
    ∃ m : Memory, s.hostWrite (BitVec.ofNat 20 (0x10000 + 4 * w)) d = { s with mem := m } ∧
      ({ s with mem := m } : State).hostRead (BitVec.ofNat 20 (0x10000 + 4 * w)) = d ∧
      (∀ i, i < 4 → m.byte? (0x10000 + 4 * w + i) = some (d.extractLsb' (8 * i) 8)) ∧
      ∀ a, a < 0x10000 + 4 * w ∨ 0x10000 + 4 * w + 4 ≤ a → m.byte? a = s.mem.byte? a

/-- A word of GROUP_BUF stores all 32 bits, at 0x40000 + 16k + 4i (R46). The bytes that hold it are the model's choice:
notes/assumptions/13.md. -/
def Obligations.GroupBufStores : Prop :=
  ∀ (s : State) (k i : Nat) (d : Word), s.rst = false → s.regs.busy = false → k < s.params.groupEntries → i < 4 →
    ∃ m : Memory, s.hostWrite (BitVec.ofNat 20 (0x40000 + 16 * k + 4 * i)) d = { s with mem := m } ∧
      ({ s with mem := m } : State).hostRead (BitVec.ofNat 20 (0x40000 + 16 * k + 4 * i)) = d ∧
      (∀ draw, m.cell32 draw (0x40000 + 16 * k + 4 * i) = d) ∧
      ∀ a, a < 0x40000 + 16 * k + 4 * i ∨ 0x40000 + 16 * k + 4 * i + 4 ≤ a → m.byte? a = s.mem.byte? a

/-- A cell that was written reads as its bytes, whatever the free values (R45, R47). Of BYTE_BUF the bytes are the lanes of
R45; that the lower address of a 16-bit cell of DIGIT_BUF and of a 32-bit word of GROUP_BUF holds the low byte is the
model's choice: notes/assumptions/13.md. -/
def Obligations.WrittenCellsRead : Prop :=
  ∀ (m : Memory) (a draw : Nat) (b0 b1 b2 b3 : Byte),
    m.byte? a = some b0 → m.byte? (a + 1) = some b1 →
      (m.cell16 draw a).toNat = b0.toNat + b1.toNat * 2 ^ 8 ∧
      (m.byte? (a + 2) = some b2 → m.byte? (a + 3) = some b3 →
        (m.cell32 draw a).toNat =
          b0.toNat + b1.toNat * 2 ^ 8 + b2.toNat * 2 ^ 16 + b3.toNat * 2 ^ 24)

/-- Unpopulated addresses read 0 and ignore writes (R18, R43). -/
def Obligations.ReservedAddressesInert : Prop :=
  ∀ (s : State) (a : HostAddr) (d : Word), s.rst = false → s.regs.busy = false →
    ((wordAddr a = 0x018 ∨ wordAddr a = 0x01C ∨ (0x068 ≤ wordAddr a ∧ wordAddr a < 0x100) ∨
        (0x200 ≤ wordAddr a ∧ wordAddr a < 0x10000) ∨
        (0x10000 + s.params.bufBytes ≤ wordAddr a ∧ wordAddr a < 0x40000) ∨
        0x40000 + 4 * s.params.bufBytes ≤ wordAddr a) →
      s.hostRead a = 0#32 ∧ s.hostWrite a d = s)

/-- With `rst` released and BUSY = 0, what a host read of each register returns, offset by offset (R18 to R38): its fields,
reserved bits 0, a read-only result register its result. And what a write of a read/write register leaves: the register
reads back the bits of its field, and no other register, no buffer and nothing else changes; CTRL reads back IE, SRST reading
0 (R22; with SRST written 1, SoftReset); CMD reads back the last stored word (R23; the rest of that write:
AcceptanceEffect). -/
def Obligations.RegisterReadBack : Prop :=
  ∀ s : State, s.rst = false → s.regs.busy = false →
    (let g := s.regs;
      s.hostRead 0x00000#20 = 0x065A2430#32 ∧
      (s.hostRead 0x00004#20).toNat = s.params.groupEntries * 2 ^ 16 + 0x4040 ∧
      (s.hostRead 0x00008#20).toNat = g.ie.toNat ∧
      s.hostRead 0x0000C#20 = g.cmd ∧
      (s.hostRead 0x00010#20).toNat =
        2 * g.done.toNat + 4 * g.ovr.toNat + 8 * g.err.toNat + 16 * g.kind.code + 256 * g.detail.code ∧
      (s.hostRead 0x00014#20).toNat = g.errPos.toNat + g.errSlot.toNat * 2 ^ 16 ∧
      s.hostRead 0x00020#20 = g.blkIn ∧ (s.hostRead 0x00024#20).toNat = g.blkLen.toNat ∧
      s.hostRead 0x00028#20 = g.blkOut ∧ (s.hostRead 0x0002C#20).toNat = g.blkOutLen.toNat ∧
      (s.hostRead 0x00030#20).toNat = g.idxIn0.idx.toNat + g.idxIn0.recog.toNat * 2 ^ 31 ∧
      (s.hostRead 0x00034#20).toNat = g.idxIn1.idx.toNat + g.idxIn1.recog.toNat * 2 ^ 31 ∧
      (s.hostRead 0x00038#20).toNat = g.idxIn2.idx.toNat + g.idxIn2.recog.toNat * 2 ^ 31 ∧
      (s.hostRead 0x0003C#20).toNat = g.idxInCnt.toNat ∧
      s.hostRead 0x00040#20 = g.idxOut0 ∧ s.hostRead 0x00044#20 = g.idxOut1 ∧ s.hostRead 0x00048#20 = g.idxOut2 ∧
      (s.hostRead 0x0004C#20).toNat = g.idxOutCnt.toNat ∧
      (s.hostRead 0x00050#20).toNat = g.base.toNat ∧
      s.hostRead 0x00054#20 = g.valLo ∧ s.hostRead 0x00058#20 = g.valHi ∧
      (s.hostRead 0x0005C#20).toNat = g.ndig.toNat ∧
      (s.hostRead 0x00060#20).toNat = g.seqLen.toNat ∧ (s.hostRead 0x00064#20).toNat = g.grpCnt.toNat) ∧
    (∀ (n : RegName) (a : HostAddr) (mask d : Word),
      (n, a, mask) ∈ [(RegName.blkIn, 0x00020#20, 0xFFFFFFFF#32), (.blkLen, 0x00024#20, 0x7#32),
        (.idxIn0, 0x00030#20, 0x80000FFF#32), (.idxIn1, 0x00034#20, 0x80000FFF#32), (.idxIn2, 0x00038#20, 0x80000FFF#32),
        (.idxInCnt, 0x0003C#20, 0x3#32), (.base, 0x00050#20, 0xFFFF#32), (.valLo, 0x00054#20, 0xFFFFFFFF#32),
        (.valHi, 0x00058#20, 0xFFFFFFFF#32), (.ndig, 0x0005C#20, 0x7F#32), (.seqLen, 0x00060#20, 0xFFFF#32),
        (.grpCnt, 0x00064#20, 0xFFFF#32)] →
      ∃ g : Regs, s.hostWrite a d = { s with regs := g } ∧
        ({ s with regs := g } : State).hostRead a = d &&& mask ∧
        ∀ n', n' ≠ n → ({ s with regs := g } : State).readReg n' = s.readReg n') ∧
    (∀ d : Word, d.getLsbD 1 = false → (s.hostWrite 0x00008#20 d).hostRead 0x00008#20 = d &&& 0x1#32) ∧
    ∀ d : Word, (s.hostWrite 0x0000C#20 d).hostRead 0x0000C#20 = d

/-- A write to a read-only register is ignored (R18): to ID, PARAM, ERR_POS, BLK_OUT, BLK_OUT_LEN, IDX_OUT0 to IDX_OUT2 and
IDX_OUT_CNT, at their offsets (R19). -/
def Obligations.ReadOnlyRegistersIgnoreWrites : Prop :=
  ∀ (s : State) (a : HostAddr) (d : Word), s.regs.busy = false →
    a ∈ [0x00000#20, 0x00004#20, 0x00014#20, 0x00028#20, 0x0002C#20, 0x00040#20, 0x00044#20, 0x00048#20, 0x0004C#20] →
    s.hostWrite a d = s

/-- The fields of ID and PARAM (R20, R21). -/
def Obligations.IdAndParamFields : Prop :=
  ∀ s : State, s.rst = false →
    s.hostRead 0x00000#20 = 0x065A2430#32 ∧
    (s.hostRead 0x00004#20).extractLsb' 0 8 = 64#8 ∧
    (s.hostRead 0x00004#20).extractLsb' 8 8 = 64#8 ∧
    ((s.hostRead 0x00004#20).extractLsb' 16 16).toNat = s.params.groupEntries ∧
    s.params.bufBytes = 4 * s.params.groupEntries ∧ 4 ≤ s.params.bufBytes ∧ s.params.bufBytes ≤ 65532

/-- While BUSY = 1 a write to any word but CTRL and STATUS is dropped and sets OVR (R128); a write to CTRL without SRST
sets IE, and a write to STATUS clears the bits written 1, as usual (R22, R24). -/
def Obligations.BusyWritesDropped : Prop :=
  ∀ (s : State) (a : HostAddr) (d : Word), s.rst = false → s.regs.busy = true →
    (wordAddr a ≠ 0x008 → wordAddr a ≠ 0x010 →
      s.hostWrite a d = { s with regs := { s.regs with ovr := true } }) ∧
    (wordAddr a = 0x008 → d.getLsbD 1 = false →
      s.hostWrite a d = { s with regs := { s.regs with ie := d.getLsbD 0 } }) ∧
    (wordAddr a = 0x008 → d.getLsbD 1 = true → s.hostWrite a d = s.resetPulse) ∧
    (wordAddr a = 0x010 →
      s.hostWrite a d =
        { s with regs := { s.regs with
          done := s.regs.done && !d.getLsbD 1, ovr := s.regs.ovr && !d.getLsbD 2 } })

/-- While BUSY = 1 the reads of five registers return their values, and a read of any other word a free value, a fresh draw
for each read (R129; UNSPEC as a free value: notes/assumptions/5.md). -/
def Obligations.BusyReads : Prop :=
  ∀ (s : State) (a : HostAddr), s.rst = false → s.regs.busy = true →
    (wordAddr a = 0x000 → s.hostRead a = 0x065A2430#32) ∧
    (wordAddr a = 0x004 → (s.hostRead a).toNat = s.params.groupEntries * 2 ^ 16 + 0x4040) ∧
    (wordAddr a = 0x008 → (s.hostRead a).toNat = s.regs.ie.toNat) ∧
    (wordAddr a = 0x00C → s.hostRead a = s.regs.cmd) ∧
    (wordAddr a = 0x010 → (s.hostRead a).toNat =
      1 + 2 * s.regs.done.toNat + 4 * s.regs.ovr.toNat + 8 * s.regs.err.toNat + 16 * s.regs.kind.code +
        256 * s.regs.detail.code) ∧
    (0x010 < wordAddr a → s.hostRead a = Config.freeRead s.draws ∧ (s.perform (.rd a)).draws = s.draws + 1)

/-- Writes to STATUS and CTRL, busy or not (R22, R24): a write to STATUS clears DONE or OVR where it writes 1 and changes no
other field; a write to CTRL without SRST sets IE to bit 0 and changes nothing else. -/
def Obligations.StatusAndCtrlWrites : Prop :=
  ∀ (s : State) (d : Word), s.rst = false →
    (d.getLsbD 1 = false → s.hostWrite 0x00008#20 d = { s with regs := { s.regs with ie := d.getLsbD 0 } }) ∧
    s.hostWrite 0x00010#20 d =
      { s with regs := { s.regs with done := s.regs.done && !d.getLsbD 1, ovr := s.regs.ovr && !d.getLsbD 2 } } ∧
    (s.hostWrite 0x00010#20 d).regs.statusWord &&& 0xFFFFFFF9#32 = s.regs.statusWord &&& 0xFFFFFFF9#32 ∧
    (s.hostWrite 0x00010#20 d).regs.statusWord &&& 0x6#32 = s.regs.statusWord &&& ~~~d &&& 0x6#32

/-! ### Interrupt and reset -/

/-- `irq` (R117): the level of IE and DONE; it rises at completion with IE = 1 or when IE is set with DONE = 1; it falls
when DONE is cleared, at the next acceptance, at a reset, and when IE is cleared. -/
def Obligations.IrqRisesAndFalls : Prop :=
  ∀ s : State,
    (s.irq = true ↔ s.regs.ie = true ∧ s.regs.done = true) ∧
    (∀ i t, exec i s = .next t → t.irq = s.regs.ie) ∧
    (s.rst = false → (s.hostWrite 0x00008#20 0x1#32).irq = s.regs.done) ∧
    (s.rst = false → (s.hostWrite 0x00008#20 0x0#32).irq = false) ∧
    (s.rst = false → (s.hostWrite 0x00010#20 0x2#32).irq = false) ∧
    (s.rst = false → s.regs.busy = false → ∀ w, (s.hostWrite 0x0000C#20 w).irq = false) ∧
    (s.rst = false → ∀ d : Word, d.getLsbD 1 = true → (s.hostWrite 0x00008#20 d).irq = false) ∧
    (s.setRst true).irq = false

/-- What every register reads right after reset, what is in the buffers, and that nothing is pending (R19, R47, R124). That
`State.reset` is the power-on reset of an MBC of BUF_BYTES = 1024 is the model's choice: notes/assumptions/1.md and 10.md. -/
def Obligations.ResetRegisterValues : Prop :=
  (∀ n : RegName, State.reset.hostRead (BitVec.ofNat 20 (regOffset n)) =
    match n with
    | .id => 0x065A2430#32
    | .param => 0x01004040#32
    | .base => 0x0000065A#32
    | _ => 0x00000000#32) ∧
  (∀ a, State.reset.mem.byte? a = none) ∧ State.reset.pending = none ∧ State.reset.irq = false ∧
    State.reset.params.bufBytes = 1024

/-- Hardware reset (R124): asserting `rst` sets every register and PENDING, idle buffers keep their contents, and while it
stays asserted no write has an effect and every read is a free value (UNSPEC: notes/assumptions/5.md); releasing it changes
nothing else. -/
def Obligations.HardwareReset : Prop :=
  ∀ s : State,
    (s.setRst true).regs = Regs.reset ∧ (s.setRst true).pending = none ∧ (s.setRst true).rst = true ∧
    (s.pending = none → (s.setRst true).mem = s.mem) ∧
    (s.rst = true → ∀ a d, s.hostWrite a d = s ∧ s.hostRead a = Config.freeRead s.draws) ∧
    s.setRst false = { s with rst := false }

/-- Soft reset (R125): a write to CTRL with bit 1 set, at any time, has the effect of a reset pulse, IE becomes 0 whatever
bit 0 is, and SRST reads 0. -/
def Obligations.SoftReset : Prop :=
  ∀ (s : State) (a : HostAddr) (d : Word), s.rst = false → wordAddr a = 0x008 → d.getLsbD 1 = true →
    { s.hostWrite a d with rst := true } = s.setRst true ∧ (s.hostWrite a d).rst = false ∧
    (s.hostWrite a d).regs = Regs.reset ∧ (s.hostWrite a d).pending = none ∧
    (s.hostWrite a d).hostRead 0x00008#20 = 0#32

/-- A reset that abandons a command (R126): no status is recorded, and every buffer byte outside the cells the command may
write keeps its value (what those cells hold is free: notes/assumptions/8.md). -/
def Obligations.AbandonedCommandCells : Prop :=
  ∀ (s : State) (p : Pending) (i : Instr), s.pending = some p → decodeWord p.word = i →
    let n := p.snapshot.regs.seqLen.toNat
    let g := p.snapshot.regs.grpCnt.toNat
    let t := s.resetPulse
    t.regs = Regs.reset ∧ t.pending = none ∧
    (i = .tobase →
      ∀ a, (∀ j, j < 64 → a ≠ 0x100 + 4 * j ∧ a ≠ 0x100 + 4 * j + 1) → t.mem.byte? a = s.mem.byte? a) ∧
    (i = .encseq → n ≤ s.params.bufBytes →
      ∀ a, a < 0x40000 ∨ 0x40000 + 16 * ((n + 3) / 4) ≤ a → t.mem.byte? a = s.mem.byte? a) ∧
    (i = .encseq → s.params.bufBytes < n → t.mem = s.mem) ∧
    (i = .decseq → g ≤ s.params.groupEntries →
      ∀ a, a < 0x10000 ∨ 0x10000 + 4 * g ≤ a → t.mem.byte? a = s.mem.byte? a) ∧
    (i = .decseq → s.params.groupEntries < g → t.mem = s.mem) ∧
    (i ≠ .tobase → i ≠ .encseq → i ≠ .decseq → t.mem = s.mem)
end

