-- ==== Sys2Proof/Laws/Converter.lean ====
section
/-! SUPPORT. The laws of the Digit Converter's functions. -/

namespace Sys2Proof.Machine

@[simp] theorem toBaseWithin_zero (b f : Nat) : toBaseWithin b f 0 = [] := by cases f <;> rfl

/-- Every bound that is large enough gives the same digits. -/
theorem toBaseWithin_bound {b : Nat} (hb : 2 ≤ b) :
    ∀ {f g n : Nat}, n < 2 ^ f → n < 2 ^ g → toBaseWithin b f n = toBaseWithin b g n := by
  intro f
  induction f with
  | zero =>
    intro g n hf _
    obtain rfl : n = 0 := by simpa using hf
    simp
  | succ f ih =>
    intro g n hf hg
    by_cases hn : n = 0
    · subst hn; simp
    · cases g with
      | zero => simp at hg; omega
      | succ g =>
        have hdiv : n / b ≤ n / 2 := Nat.div_le_div_left hb (by omega)
        have h2 : ∀ e, n < 2 ^ (e + 1) → n / b < 2 ^ e := fun e he => by rw [pow_succ] at he; omega
        simp only [toBaseWithin, if_neg hn, ih (h2 f hf) (h2 g hg)]

@[simp] theorem toBase_zero (b : Nat) : toBase b 0 = [] := toBaseWithin_zero b _

/-- The equation of `toBase` at a positive number (R68). -/
theorem toBase_of_pos {b n : Nat} (hb : 2 ≤ b) (hn : 0 < n) : toBase b n = toBase b (n / b) ++ [n % b] := by
  have hlt : n < 2 ^ (n.log2 + 1) := Nat.lt_log2_self
  have hdiv : n / b ≤ n / 2 := Nat.div_le_div_left hb (by omega)
  have h1 : n / b < 2 ^ n.log2 := by rw [pow_succ] at hlt; omega
  conv_lhs => rw [toBase, toBaseWithin, if_neg (by omega)]
  rw [toBaseWithin_bound hb h1 (Nat.lt_log2_self (n := n / b))]
  rfl

/-- A property of every number and its digits, by the equations of `toBase`. -/
theorem toBase_induction {b : Nat} (hb : 2 ≤ b) {P : Nat → List Nat → Prop} (zero : P 0 [])
    (pos : ∀ n, 0 < n → P (n / b) (toBase b (n / b)) → P n (toBase b (n / b) ++ [n % b])) (n : Nat) :
    P n (toBase b n) := by
  induction n using Nat.strong_induction_on with
  | _ n ih =>
    rcases Nat.eq_zero_or_pos n with rfl | hn
    · simpa using zero
    · rw [toBase_of_pos hb hn]
      exact pos n hn (ih _ (Nat.div_lt_self hn hb))

theorem toBase_digit_lt {b : Nat} (hb : 2 ≤ b) (n : Nat) : ∀ d ∈ toBase b n, d < b := by
  refine toBase_induction hb (P := fun _ ds => ∀ d ∈ ds, d < b) (by simp) (fun n _ ih d hd => ?_) n
  rcases List.mem_append.1 hd with hd | hd
  · exact ih d hd
  · rw [List.mem_singleton.1 hd]; exact Nat.mod_lt _ (by omega)

/-- A number has at most `k` digits exactly when it is below `b ^ k`. -/
theorem toBase_length_le_iff {b : Nat} (hb : 2 ≤ b) (n : Nat) : ∀ k, (toBase b n).length ≤ k ↔ n < b ^ k := by
  refine toBase_induction hb (P := fun n ds => ∀ k, ds.length ≤ k ↔ n < b ^ k) (fun k => ?_) (fun n hn ih k => ?_) n
  · simp [Nat.pow_pos (show 0 < b by omega)]
  · cases k with
    | zero => simp; omega
    | succ k =>
      rw [List.length_append, List.length_singleton, Nat.succ_le_succ_iff, ih k, pow_succ,
        Nat.div_lt_iff_lt_mul (by omega)]

@[simp] theorem fromBase_nil (b : Nat) : fromBase b [] = 0 := rfl

@[simp] theorem fromBase_concat (b : Nat) (ds : List Nat) (d : Nat) :
    fromBase b (ds ++ [d]) = fromBase b ds * b + d := by simp [fromBase]

theorem fromBase_toBase {b : Nat} (hb : 2 ≤ b) (n : Nat) : fromBase b (toBase b n) = n := by
  refine toBase_induction hb (P := fun n ds => fromBase b ds = n) rfl (fun n _ ih => ?_) n
  rw [fromBase_concat, ih, Nat.div_add_mod']

/-- The value of digits after a value already read. -/
theorem fromBase_foldl (b v : Nat) (ds : List Nat) :
    ds.foldl (fun v d => v * b + d) v = v * b ^ ds.length + fromBase b ds := by
  induction ds using List.reverseRecOn with
  | nil => simp
  | append_singleton ds d ih => simp only [List.foldl_append, List.foldl_cons, List.foldl_nil, ih, fromBase_concat,
      List.length_append, List.length_singleton, pow_succ]; ring

theorem fromBase_append (b : Nat) (xs ys : List Nat) :
    fromBase b (xs ++ ys) = fromBase b xs * b ^ ys.length + fromBase b ys := by
  rw [fromBase, List.foldl_append, fromBase_foldl]; rfl

theorem fromBase_cons (b d : Nat) (ds : List Nat) : fromBase b (d :: ds) = d * b ^ ds.length + fromBase b ds := by
  have := fromBase_append b [d] ds
  simpa [fromBase] using this

theorem fromBase_replicate_zero (b z : Nat) (ds : List Nat) :
    fromBase b (List.replicate z 0 ++ ds) = fromBase b ds := by
  induction z with
  | zero => rfl
  | succ z ih => rw [List.replicate_succ, List.cons_append, fromBase_cons, ih]; simp

/-- Digits below the radix represent a number below `b ^ length`. -/
theorem fromBase_lt {b : Nat} {ds : List Nat} (h : ∀ d ∈ ds, d < b) : fromBase b ds < b ^ ds.length := by
  induction ds using List.reverseRecOn with
  | nil => simp
  | append_singleton ds d ih =>
    have h1 := ih (fun x hx => h x (by simp [hx]))
    have h2 := h d (by simp)
    rw [fromBase_concat, List.length_append, List.length_singleton, pow_succ]
    calc fromBase b ds * b + d < fromBase b ds * b + b := by omega
      _ = (fromBase b ds + 1) * b := by ring
      _ ≤ b ^ ds.length * b := Nat.mul_le_mul_right b h1

/-- Digits below the radix, of one length, are told apart by their value. -/
theorem fromBase_injective {b : Nat} {xs ys : List Nat} (hl : xs.length = ys.length)
    (hx : ∀ d ∈ xs, d < b) (hy : ∀ d ∈ ys, d < b) (h : fromBase b xs = fromBase b ys) : xs = ys := by
  induction xs using List.reverseRecOn generalizing ys with
  | nil => exact (List.length_eq_zero_iff.1 hl.symm).symm
  | append_singleton xs x ih =>
    rcases List.eq_nil_or_concat' ys with rfl | ⟨ys, y, rfl⟩
    · simp at hl
    · have hxb := hx x (by simp)
      have hyb := hy y (by simp)
      rw [fromBase_concat, fromBase_concat] at h
      have e1 : x = y := by
        have := congrArg (· % b) h
        simpa [Nat.mul_add_mod', Nat.mod_eq_of_lt hxb, Nat.mod_eq_of_lt hyb] using this
      subst e1
      have e2 : fromBase b xs = fromBase b ys := Nat.eq_of_mul_eq_mul_right (by omega) (by omega : _ * b = _ * b)
      rw [ih (by simpa using hl) (fun d hd => hx d (by simp [hd])) (fun d hd => hy d (by simp [hd])) e2]

end Sys2Proof.Machine
end

