-- ==== Sys2Proof/Laws/Codec.lean ====
section
/-! SUPPORT. The laws of the Block Codec's functions. -/

namespace Sys2Proof.Machine

/-! ### Block values -/

theorem map_toNat_lt (bs : List Byte) : ∀ d ∈ (bs.map BitVec.toNat).reverse, d < 256 := by
  intro d hd
  obtain ⟨b, _, rfl⟩ := List.mem_map.1 (List.mem_reverse.1 hd)
  exact b.isLt

theorem blockValue_lt (bs : List Byte) : blockValue bs < 256 ^ bs.length := by
  simpa [blockValue] using fromBase_lt (map_toNat_lt bs)

/-- A block is told apart from the blocks of its length by its value. -/
theorem blockValue_injective {xs ys : List Byte} (hl : xs.length = ys.length) (h : blockValue xs = blockValue ys) :
    xs = ys := by
  have := fromBase_injective (by simpa using hl) (map_toNat_lt xs) (map_toNat_lt ys) h
  exact List.map_injective_iff.2 (fun _ _ => BitVec.eq_of_toNat_eq) (List.reverse_injective this)

@[simp] theorem blockValue_nil : blockValue [] = 0 := rfl

@[simp] theorem blockValue_cons (b : Byte) (bs : List Byte) :
    blockValue (b :: bs) = b.toNat + 256 * blockValue bs := by
  simp only [blockValue, List.map_cons, List.reverse_cons, fromBase_concat]; ring

/-- Zero bytes after a block add nothing to its value. -/
@[simp] theorem blockValue_append_zeros (bs : List Byte) (z : Nat) :
    blockValue (bs ++ List.replicate z 0#8) = blockValue bs := by
  simp [blockValue, List.map_append, List.reverse_append, fromBase_replicate_zero]

/-! ### Bytes of a value -/

@[simp] theorem valueBytes_length (v : Nat) : (valueBytes v).length = (toBase 256 v).length := by simp [valueBytes]

@[simp] theorem blockValue_valueBytes (v : Nat) : blockValue (valueBytes v) = v := by
  have h : ((valueBytes v).map BitVec.toNat).reverse = toBase 256 v := by
    rw [valueBytes, List.map_map, List.map_reverse, List.reverse_reverse]
    refine (List.map_congr_left fun d hd => ?_).trans (List.map_id _)
    have := toBase_digit_lt (by omega : 2 ≤ 256) v d hd
    simp [Nat.mod_eq_of_lt this]
  rw [blockValue, h, fromBase_toBase (by omega)]

/-- A value needs more than `n` bytes exactly when it is 256^n or more (R83). -/
theorem lt_valueBytes_length_iff (v n : Nat) : n < (valueBytes v).length ↔ 256 ^ n ≤ v := by
  have := toBase_length_le_iff (by omega : 2 ≤ 256) v n
  rw [valueBytes_length]; omega

/-! ### Index tuples -/

theorem canonLen_eq {n : Nat} (h1 : 1 ≤ n) (h4 : n ≤ 4) : canonLen n = if n = 4 then 3 else n := by
  interval_cases n <;> rfl

theorem pow_256_le_canon {n : Nat} (h1 : 1 ≤ n) (h4 : n ≤ 4) : 256 ^ n ≤ 1626 ^ canonLen n := by
  interval_cases n <;> decide

theorem toBase_blockValue_length {bs : List Byte} (h1 : 1 ≤ bs.length) (h4 : bs.length ≤ 4) :
    (toBase 1626 (blockValue bs)).length ≤ canonLen bs.length :=
  (toBase_length_le_iff (by omega) _ _).2 (lt_of_lt_of_le (blockValue_lt bs) (pow_256_le_canon h1 h4))

/-- The digits of a block at its canonical length (R77, R79). -/
def blockDigits (bs : List Byte) : List Nat := padLeft (canonLen bs.length) (toBase Config.radix (blockValue bs))

theorem blockDigits_length {bs : List Byte} (h1 : 1 ≤ bs.length) (h4 : bs.length ≤ 4) :
    (blockDigits bs).length = canonLen bs.length := by
  have := toBase_blockValue_length h1 h4
  simp only [blockDigits, padLeft, List.length_append, List.length_replicate, Config.radix]; omega

theorem blockDigits_lt (bs : List Byte) : ∀ d ∈ blockDigits bs, d < 1626 := by
  intro d hd
  rcases List.mem_append.1 hd with hd | hd
  · rw [List.eq_of_mem_replicate hd]; omega
  · exact toBase_digit_lt (by decide : 2 ≤ 1626) _ d hd

theorem fromBase_blockDigits (bs : List Byte) : fromBase 1626 (blockDigits bs) = blockValue bs := by
  rw [blockDigits, padLeft, fromBase_replicate_zero]; exact fromBase_toBase (by decide) _

theorem blockTuple_eq (bs : List Byte) :
    blockTuple bs = if bs.length = 3 then (blockDigits bs).modify 2 (· + 1626) else blockDigits bs := rfl

theorem encodeBlock_ok {bs : List Byte} (h1 : 1 ≤ bs.length) (h4 : bs.length ≤ 4) :
    encodeBlock bs = .ok (blockTuple bs) := by
  rw [encodeBlock, if_neg]; simp only [Config.blockMax]; omega

theorem encodeBlock_error {bs : List Byte} (h : bs.length = 0 ∨ 4 < bs.length) :
    encodeBlock bs = .error ⟨.blockLen, 0#16, 0#2⟩ := by
  rw [encodeBlock, if_pos (by simpa only [Config.blockMax] using h)]; rfl

theorem encodeBlock_eq_ok_iff {bs : List Byte} {t : List Nat} :
    encodeBlock bs = .ok t ↔ (1 ≤ bs.length ∧ bs.length ≤ 4) ∧ blockTuple bs = t := by
  by_cases h : 1 ≤ bs.length ∧ bs.length ≤ 4
  · rw [encodeBlock_ok h.1 h.2]; simp [h]
  · rw [encodeBlock_error (by omega)]; simp [h]

theorem blockTuple_length {bs : List Byte} (h1 : 1 ≤ bs.length) (h4 : bs.length ≤ 4) :
    (blockTuple bs).length = canonLen bs.length := by
  rw [blockTuple_eq]; split <;> simp [blockDigits_length h1 h4]

/-- A list of three, by its entries. -/
theorem list_of_length_three {l : List Nat} (h : l.length = 3) : ∃ a b c, l = [a, b, c] := by
  match l, h with
  | [a, b, c], _ => exact ⟨a, b, c, rfl⟩

/-- The tuple of a 3-byte block: three digits, the last moved to bank B. -/
theorem blockTuple_three {bs : List Byte} (h : bs.length = 3) :
    ∃ a b c, blockDigits bs = [a, b, c] ∧ blockTuple bs = [a, b, c + 1626] := by
  have hl : (blockDigits bs).length = 3 := by rw [blockDigits_length (by omega) (by omega), h]; rfl
  obtain ⟨a, b, c, e⟩ := list_of_length_three hl
  exact ⟨a, b, c, e, by rw [blockTuple_eq, if_pos h, e]; rfl⟩

/-- The tuple of a block of another length: its digits. -/
theorem blockTuple_of_ne_three {bs : List Byte} (h : bs.length ≠ 3) : blockTuple bs = blockDigits bs := by
  rw [blockTuple_eq, if_neg h]

theorem blockTuple_lt (bs : List Byte) : ∀ i ∈ blockTuple bs, i < 3252 := by
  by_cases h : bs.length = 3
  · obtain ⟨a, b, c, e, et⟩ := blockTuple_three h
    have := blockDigits_lt bs
    rw [e] at this; rw [et]
    simp only [List.mem_cons, List.not_mem_nil, or_false, forall_eq_or_imp, forall_eq] at this ⊢
    omega
  · rw [blockTuple_of_ne_three h]
    exact fun i hi => lt_trans (blockDigits_lt bs i hi) (by decide)

/-! ### Word-bank addresses and slot words -/

theorem bankAddr_lt {i : Nat} (h : i < 3252) : bankAddr i < 2 ^ 12 := by
  simp only [bankAddr, Config.bankSize]; split <;> omega

theorem slotWord_toNat {i : Nat} (h : i < 3252) : (slotWord i).toNat = i + bankAddr i * 2 ^ 16 + 2 ^ 31 := by
  have := bankAddr_lt h
  rw [slotWord, BitVec.toNat_ofNat]; omega

/-- What decodeBlock reads in a used output slot: the index, recognised. -/
theorem slotOfWord_slotWord {i : Nat} (h : i < 3252) : (slotOfWord (slotWord i)).codec = (i, true) := by
  have := bankAddr_lt h
  have e := slotWord_toNat h
  have e1 : ((slotWord i).extractLsb' 0 12).toNat = i := by
    rw [BitVec.extractLsb'_toNat, e, Nat.shiftRight_zero]; omega
  have e2 : (slotWord i).getLsbD 31 = true := by
    rw [BitVec.getLsbD, e, Nat.testBit_eq_decide_div_mod_eq]
    rw [decide_eq_true_eq]; omega
  simp only [slotOfWord, Slot.codec, e1, e2]

theorem tupleSlot_toNat {t : List Nat} (h : ∀ i ∈ t, i < 3252) (j : Nat) :
    (tupleSlot t j).toNat = if j < t.length then t.getD j 0 + bankAddr (t.getD j 0) * 2 ^ 16 + 2 ^ 31 else 0 := by
  unfold tupleSlot
  by_cases hj : j < t.length
  · rw [if_pos hj, List.getElem?_eq_getElem hj]
    simpa [List.getD_eq_getElem?_getD, hj] using slotWord_toNat (h _ (List.getElem_mem hj))
  · rw [if_neg hj, List.getElem?_eq_none (by omega)]; rfl

/-! ### Decoding -/

/-- The first index that satisfies a predicate, named. -/
theorem findIdx?_eq_some {α : Type} {p : α → Bool} {l : List α} {j : Nat} (hj : j < l.length) (h : p l[j] = true)
    (hlt : ∀ i (hi : i < j), p (l[i]'(by omega)) = false) : l.findIdx? p = some j := by
  rw [List.findIdx?_eq_some_iff_getElem]
  exact ⟨hj, h, fun i hi => by simp [hlt i hi]⟩

theorem findIdx?_eq_none {α : Type} {p : α → Bool} {l : List α} (h : ∀ x ∈ l, p x = false) : l.findIdx? p = none := by
  rw [List.findIdx?_eq_none_iff]; exact h

/-- With the digits of a group all below the radix, decoding succeeds exactly when the value fits its output length, and
then gives that many bytes of that value (R82 steps 6 to 8, R83). -/
theorem decodeIndices_of_digits {ix : List Nat} (hp : ∀ i ∈ plainPositions ix, i < 1626)
    (hd : ∀ d ∈ groupDigits ix, d < 1626) :
    (256 ^ outLength ix ≤ fromBase 1626 (groupDigits ix) →
      decodeIndices ix = .error ⟨.valueOverflow, 0#16, 0#2⟩) ∧
    (fromBase 1626 (groupDigits ix) < 256 ^ outLength ix →
      ∃ bs, decodeIndices ix = .ok bs ∧ bs.length = outLength ix ∧ blockValue bs = fromBase 1626 (groupDigits ix)) := by
  have e1 : (plainPositions ix).findIdx? (fun i => decide (Config.radix ≤ i)) = none :=
    findIdx?_eq_none fun i hi => by have := hp i hi; simp only [Config.radix, decide_eq_false_iff_not]; omega
  have e2 : (groupDigits ix).findIdx? (fun d => decide (Config.radix ≤ d)) = none :=
    findIdx?_eq_none fun d hi => by have := hd d hi; simp only [Config.radix, decide_eq_false_iff_not]; omega
  have hl := lt_valueBytes_length_iff (fromBase 1626 (groupDigits ix)) (outLength ix)
  simp only [decodeIndices, e1, e2]
  simp only [Config.radix]
  constructor
  · intro h; rw [if_pos (hl.2 h)]; rfl
  · intro h
    rw [if_neg (by omega)]
    exact ⟨_, rfl, by rw [List.length_append, List.length_replicate]; omega, by simp⟩

/-- Every error of decodeBlock is one of five details, with position 0. -/
theorem decodeBlock_error_detail {c : Nat} {s : List CodecSlot} {e : CmdError} (h : decodeBlock c s = .error e) :
    (e.detail = .groupLen ∨ e.detail = .unrecognized ∨ e.detail = .bankBPosition ∨ e.detail = .digitRange ∨
      e.detail = .valueOverflow) ∧ e.pos = 0#16 := by
  unfold decodeBlock at h
  split at h
  · cases h; simp [CmdError.atSlot]
  · split at h
    · cases h; simp [CmdError.atSlot]
    · unfold decodeIndices at h
      split at h
      · cases h; simp [CmdError.atSlot]
      · split at h
        · cases h; simp [CmdError.atSlot]
        · simp only at h
          split at h
          · cases h; simp [CmdError.atSlot]
          · cases h

/-- A decoded group has 1 to 4 bytes. -/
theorem decodeBlock_ok_length {c : Nat} {s : List CodecSlot} {bs : List Byte} (hs : c ≤ s.length)
    (h : decodeBlock c s = .ok bs) : 1 ≤ bs.length ∧ bs.length ≤ 4 := by
  unfold decodeBlock at h
  split at h
  · cases h
  · rename_i hc
    simp only [Config.groupMax] at hc
    split at h
    · cases h
    · have hix : ((s.take c).map Prod.fst).length = c := by simp [Nat.min_eq_left hs]
      generalize (s.take c).map Prod.fst = ix at h hix
      unfold decodeIndices at h
      split at h
      · cases h
      · split at h
        · cases h
        · simp only at h
          split at h
          · cases h
          · cases h
            rw [List.length_append, List.length_replicate]
            have : 1 ≤ outLength ix ∧ outLength ix ≤ 4 := by
              unfold outLength; split <;> [split; skip] <;> omega
            omega

end Sys2Proof.Machine
end

