-- ==== Sys2Proof/Laws/State.lean ====
section
/-! SUPPORT. One lemma per field per update of the state, each true by `rfl`. -/

namespace Sys2Proof.Machine

/-! ### finish -/
@[simp] theorem State.finish_mem (s : State) : s.finish.mem = s.mem := rfl
@[simp] theorem State.finish_pending (s : State) : s.finish.pending = none := rfl
@[simp] theorem State.finish_params (s : State) : s.finish.params = s.params := rfl
@[simp] theorem State.finish_rst (s : State) : s.finish.rst = s.rst := rfl
@[simp] theorem State.finish_script (s : State) : s.finish.script = s.script := rfl
@[simp] theorem State.finish_r (s : State) : s.finish.r = s.r := rfl
@[simp] theorem State.finish_checksFailed (s : State) : s.finish.checksFailed = s.checksFailed := rfl
@[simp] theorem State.finish_draws (s : State) : s.finish.draws = s.draws + 1 := rfl
@[simp] theorem State.finish_regs (s : State) : s.finish.regs = { s.regs with busy := false, done := true } := rfl

/-! ### recordOk and recordError -/
@[simp] theorem State.recordOk_mem (s : State) : s.recordOk.mem = s.mem := rfl
@[simp] theorem State.recordOk_pending (s : State) : s.recordOk.pending = none := rfl
@[simp] theorem State.recordOk_params (s : State) : s.recordOk.params = s.params := rfl
@[simp] theorem State.recordOk_rst (s : State) : s.recordOk.rst = s.rst := rfl
@[simp] theorem State.recordOk_script (s : State) : s.recordOk.script = s.script := rfl
@[simp] theorem State.recordOk_r (s : State) : s.recordOk.r = s.r := rfl
@[simp] theorem State.recordOk_checksFailed (s : State) : s.recordOk.checksFailed = s.checksFailed := rfl
@[simp] theorem State.recordOk_draws (s : State) : s.recordOk.draws = s.draws + 1 := rfl
@[simp] theorem State.recordOk_regs (s : State) :
    s.recordOk.regs = { s.regs.okRecord with busy := false, done := true } := rfl
@[simp] theorem State.recordError_mem (s : State) (e : CmdError) : (s.recordError e).mem = s.mem := rfl
@[simp] theorem State.recordError_pending (s : State) (e : CmdError) : (s.recordError e).pending = none := rfl
@[simp] theorem State.recordError_params (s : State) (e : CmdError) : (s.recordError e).params = s.params := rfl
@[simp] theorem State.recordError_rst (s : State) (e : CmdError) : (s.recordError e).rst = s.rst := rfl
@[simp] theorem State.recordError_script (s : State) (e : CmdError) : (s.recordError e).script = s.script := rfl
@[simp] theorem State.recordError_r (s : State) (e : CmdError) : (s.recordError e).r = s.r := rfl
@[simp] theorem State.recordError_checksFailed (s : State) (e : CmdError) :
    (s.recordError e).checksFailed = s.checksFailed := rfl
@[simp] theorem State.recordError_draws (s : State) (e : CmdError) : (s.recordError e).draws = s.draws + 1 := rfl
@[simp] theorem State.recordError_regs (s : State) (e : CmdError) :
    (s.recordError e).regs = { s.regs.errorRecord e with busy := false, done := true } := rfl

/-! ### Result writes -/
@[simp] theorem State.writeDigits_mem (s : State) (ds : List Nat) :
    (s.writeDigits ds).mem = s.mem.storeDigits 0 (digitCells ds) := by simp only [State.writeDigits]
@[simp] theorem State.writeDigits_regs (s : State) (ds : List Nat) :
    (s.writeDigits ds).regs = { s.regs with ndig := BitVec.ofNat 7 ds.length } := rfl
@[simp] theorem State.writeVal_mem (s : State) (v : Nat) : (s.writeVal v).mem = s.mem := rfl
@[simp] theorem State.writeVal_regs (s : State) (v : Nat) :
    (s.writeVal v).regs = { s.regs with valLo := BitVec.ofNat 32 v, valHi := BitVec.ofNat 32 (v / 2 ^ 32) } := rfl
@[simp] theorem State.writeTuple_mem (s : State) (t : List Nat) : (s.writeTuple t).mem = s.mem := rfl
@[simp] theorem State.writeBlock_mem (s : State) (bs : List Byte) : (s.writeBlock bs).mem = s.mem := rfl
@[simp] theorem State.writeEntries_mem (s : State) (ts : List (List Nat)) :
    (s.writeEntries ts).mem = s.mem.storeList (groupAddr 0 0) (ts.flatMap entryBytes) := rfl
@[simp] theorem State.writeEntries_regs (s : State) (ts : List (List Nat)) :
    (s.writeEntries ts).regs = { s.regs with grpCnt := BitVec.ofNat 16 ts.length } := rfl
@[simp] theorem State.writeSeq_mem (s : State) (bs : List Byte) :
    (s.writeSeq bs).mem = s.mem.storeList (byteAddr 0) bs := rfl
@[simp] theorem State.writeSeq_regs (s : State) (bs : List Byte) :
    (s.writeSeq bs).regs = { s.regs with seqLen := BitVec.ofNat 16 bs.length } := rfl
@[simp] theorem State.disturbSeq_mem (s : State) (g : Nat) :
    (s.disturbSeq g).mem = s.mem.disturbCells s.draws 1 1 (byteAddr 0) (4 * g) := rfl
@[simp] theorem State.disturbSeq_regs (s : State) (g : Nat) : (s.disturbSeq g).regs = s.regs := rfl
@[simp] theorem State.disturbSeq_params (s : State) (g : Nat) : (s.disturbSeq g).params = s.params := rfl

/-! ### accept, resetPulse, tick, readInto -/
@[simp] theorem State.accept_mem (s : State) (w : Word) (d : Nat) : (s.accept w d).mem = s.mem := rfl
@[simp] theorem State.accept_params (s : State) (w : Word) (d : Nat) : (s.accept w d).params = s.params := rfl
@[simp] theorem State.accept_rst (s : State) (w : Word) (d : Nat) : (s.accept w d).rst = s.rst := rfl
@[simp] theorem State.accept_script (s : State) (w : Word) (d : Nat) : (s.accept w d).script = s.script := rfl
@[simp] theorem State.accept_draws (s : State) (w : Word) (d : Nat) : (s.accept w d).draws = s.draws := rfl
@[simp] theorem State.accept_regs (s : State) (w : Word) (d : Nat) :
    (s.accept w d).regs = { s.regs.clearError with cmd := w, busy := true, done := false } := rfl
@[simp] theorem State.accept_operands (s : State) (w : Word) (d : Nat) :
    (s.accept w d).operands = ⟨(s.accept w d).regs, s.mem⟩ := rfl
@[simp] theorem State.resetPulse_regs (s : State) : s.resetPulse.regs = Regs.reset := rfl
@[simp] theorem State.resetPulse_pending (s : State) : s.resetPulse.pending = none := rfl
@[simp] theorem State.resetPulse_params (s : State) : s.resetPulse.params = s.params := rfl
@[simp] theorem State.resetPulse_rst (s : State) : s.resetPulse.rst = s.rst := rfl
@[simp] theorem State.resetPulse_script (s : State) : s.resetPulse.script = s.script := rfl
@[simp] theorem State.resetPulse_r (s : State) : s.resetPulse.r = s.r := rfl
@[simp] theorem State.resetPulse_draws (s : State) : s.resetPulse.draws = s.draws + 1 := rfl
@[simp] theorem State.tick_regs (s : State) : s.tick.regs = s.regs := rfl
@[simp] theorem State.tick_mem (s : State) : s.tick.mem = s.mem := rfl
@[simp] theorem State.tick_params (s : State) : s.tick.params = s.params := rfl
@[simp] theorem State.tick_rst (s : State) : s.tick.rst = s.rst := rfl
@[simp] theorem State.tick_script (s : State) : s.tick.script = s.script := rfl
@[simp] theorem State.tick_r (s : State) : s.tick.r = s.r := rfl
@[simp] theorem State.tick_draws (s : State) : s.tick.draws = s.draws := rfl
@[simp] theorem State.readInto_regs (s : State) (a : HostAddr) : (s.readInto a).regs = s.regs := rfl
@[simp] theorem State.readInto_mem (s : State) (a : HostAddr) : (s.readInto a).mem = s.mem := rfl
@[simp] theorem State.readInto_pending (s : State) (a : HostAddr) : (s.readInto a).pending = s.pending := rfl
@[simp] theorem State.readInto_params (s : State) (a : HostAddr) : (s.readInto a).params = s.params := rfl
@[simp] theorem State.readInto_rst (s : State) (a : HostAddr) : (s.readInto a).rst = s.rst := rfl
@[simp] theorem State.readInto_r (s : State) (a : HostAddr) : (s.readInto a).r = s.hostRead a := rfl
@[simp] theorem State.readInto_draws (s : State) (a : HostAddr) : (s.readInto a).draws = s.draws + 1 := rfl

end Sys2Proof.Machine
end

