-- ==== Sys2Proof/Laws/HostPort.lean ====
section
/-! SUPPORT. What a host transaction can do, said once: where an address leads (R43), and every form a write can take
(R41 to R46, R102, R125, R128). -/

namespace Sys2Proof.Machine

/-! ### Addresses -/

/-- BUF_BYTES and GROUP_ENTRIES are in their ranges (R7). -/
theorem params_bounds (p : Config.Params) :
    p.bufBytes = 4 * p.groupEntries ∧ 1 ≤ p.groupEntries ∧ p.groupEntries ≤ 16383 := by
  have := p.groupsLessOne.isLt
  refine ⟨rfl, ?_, ?_⟩ <;> simp only [Config.Params.groupEntries] <;> omega

theorem target_eq (p : Config.Params) (a : HostAddr) : target p a = targetAt p (wordAddr a) := rfl

theorem targetAt_regOffset (p : Config.Params) (n : RegName) : targetAt p (regOffset n) = .reg n := by
  cases n <;> rfl

/-- Every address that leads somewhere, by what it leads to. -/
theorem targetAt_cases (p : Config.Params) (a : Nat) :
    (∃ n, a = regOffset n ∧ targetAt p a = .reg n) ∨
    ((∀ n, a ≠ regOffset n) ∧
      ((0x100 ≤ a ∧ a < 0x200 ∧ targetAt p a = .digit ((a - 0x100) / 4)) ∨
       (0x10000 ≤ a ∧ a < 0x10000 + p.bufBytes ∧ targetAt p a = .bytes ((a - 0x10000) / 4)) ∨
       (0x40000 ≤ a ∧ a < 0x40000 + 4 * p.bufBytes ∧
        targetAt p a = .group ((a - 0x40000) / 16) ((a - 0x40000) / 4 % 4)) ∨
       (¬ (0x100 ≤ a ∧ a < 0x200) ∧ ¬ (0x10000 ≤ a ∧ a < 0x10000 + p.bufBytes) ∧
        ¬ (0x40000 ≤ a ∧ a < 0x40000 + 4 * p.bufBytes) ∧ targetAt p a = .reserved))) := by
  cases h : regNames.find? (fun n => regOffset n == a) with
  | some n =>
    have hn := List.find?_some h
    exact .inl ⟨n, (beq_iff_eq.1 hn).symm, by rw [targetAt, h]⟩
  | none =>
    refine .inr ⟨fun n hn => ?_, ?_⟩
    · have := List.find?_eq_none.1 h n (by cases n <;> decide)
      simp [hn] at this
    · rw [targetAt, h]
      simp only
      split
      · rename_i h1; exact .inl ⟨h1.1, h1.2, rfl⟩
      · split
        · rename_i h1; exact .inr (.inl ⟨h1.1, h1.2, rfl⟩)
        · split
          · rename_i h1; exact .inr (.inr (.inl ⟨h1.1, h1.2, rfl⟩))
          · exact .inr (.inr (.inr ⟨‹_›, ‹_›, ‹_›, rfl⟩))

theorem regOffset_le (n : RegName) : regOffset n ≤ 0x64 ∧ regOffset n ≠ 0x18 ∧ regOffset n ≠ 0x1C := by
  cases n <;> decide

/-! ### Reads -/

/-- With `rst` released and BUSY = 0 a read returns what stands at the address (R43 to R46). -/
theorem hostRead_idle (s : State) (a : HostAddr) (hr : s.rst = false) (hb : s.regs.busy = false) :
    s.hostRead a = s.readTarget (target s.params a) := by
  simp [State.hostRead, hr, hb]

/-- Busy or not, a read of STATUS returns it while `rst` is released (R24, R129). -/
theorem hostRead_status (s : State) (hr : s.rst = false) : s.hostRead statusAddr = s.regs.statusWord := by
  have h : target s.params statusAddr = .reg .status := rfl
  simp [State.hostRead, h, hr, readableBusy, State.readTarget, State.readReg]

/-- Bit 0 of STATUS is BUSY (R24). -/
theorem statusWord_busy (g : Regs) : g.statusWord.getLsbD 0 = g.busy := by
  rw [Regs.statusWord, BitVec.getLsbD, Nat.testBit_eq_decide_div_mod_eq, BitVec.toNat_ofNat]
  cases g.busy <;> simp [Bool.toNat] <;> omega

/-! ### Writes -/

/-- Every form a host write can take. -/
theorem hostWrite_cases (s : State) (a : HostAddr) (d : Word) :
    s.hostWrite a d = s ∨
    (s.rst = false ∧
      (s.hostWrite a d = s.resetPulse ∨
       s.hostWrite a d = { s with regs := s.regs.writeCtrl d } ∨
       s.hostWrite a d = { s with regs := s.regs.writeStatus d } ∨
       (s.regs.busy = true ∧ s.hostWrite a d = { s with regs := { s.regs with ovr := true } }) ∨
       (s.regs.busy = false ∧
        (s.hostWrite a d = s.acceptCmd d ∨
         (∃ n, s.hostWrite a d = { s with regs := s.regs.writeReg d n }) ∨
         (∃ j, j < 64 ∧ s.hostWrite a d = { s with mem := s.mem.store16 (digitAddr j) (d.extractLsb' 0 16) }) ∨
         (∃ w, 4 * w < s.params.bufBytes ∧ s.hostWrite a d = { s with mem := s.mem.store32 (byteAddr (4 * w)) d }) ∨
         (∃ k i, k < s.params.groupEntries ∧ i < 4 ∧
           s.hostWrite a d = { s with mem := s.mem.store32 (groupAddr k i) d }))))) := by
  by_cases hr : s.rst = true
  · exact .inl (by rw [State.hostWrite, if_pos hr])
  replace hr : s.rst = false := by simpa using hr
  by_cases hc : target s.params a = .reg .ctrl
  · refine .inr ⟨hr, ?_⟩
    simp only [State.hostWrite, hc, hr, Bool.false_eq_true, if_false, State.writeCtrl]
    split
    · exact .inl rfl
    · exact .inr (.inl rfl)
  by_cases ht : target s.params a = .reg .status
  · refine .inr ⟨hr, .inr (.inr (.inl ?_))⟩
    simp only [State.hostWrite, ht, hr, Bool.false_eq_true, if_false]
  have e : s.hostWrite a d =
      if s.regs.busy then { s with regs := { s.regs with ovr := true } } else s.writeTarget d (target s.params a) := by
    rw [State.hostWrite, if_neg (by simp [hr])]
    split
    · exact absurd ‹_› hc
    · exact absurd ‹_› ht
    · rfl
  by_cases hb : s.regs.busy = true
  · exact .inr ⟨hr, .inr (.inr (.inr (.inl ⟨hb, by rw [e, if_pos hb]⟩)))⟩
  rw [if_neg hb] at e
  replace hb : s.regs.busy = false := by simpa using hb
  have hp := params_bounds s.params
  rcases targetAt_cases s.params (wordAddr a) with ⟨n, _, h⟩ | ⟨_, ⟨h1, h2, h⟩ | ⟨h1, h2, h⟩ | ⟨h1, h2, h⟩ | ⟨_, _, _, h⟩⟩
  · rw [target_eq, h] at e
    refine .inr ⟨hr, .inr (.inr (.inr (.inr ⟨hb, ?_⟩)))⟩
    by_cases hn : n = .cmd
    · subst hn; exact .inl e
    · refine .inr (.inl ⟨n, ?_⟩)
      rw [e]; cases n <;> first | rfl | exact absurd rfl hn
  · rw [target_eq, h] at e
    exact .inr ⟨hr, .inr (.inr (.inr (.inr ⟨hb, .inr (.inr (.inl ⟨_, by omega, e⟩))⟩)))⟩
  · rw [target_eq, h] at e
    exact .inr ⟨hr, .inr (.inr (.inr (.inr ⟨hb, .inr (.inr (.inr (.inl ⟨_, by omega, e⟩)))⟩)))⟩
  · rw [target_eq, h] at e
    exact .inr ⟨hr, .inr (.inr (.inr (.inr ⟨hb, .inr (.inr (.inr (.inr ⟨_, _, by omega, by omega, e⟩)))⟩)))⟩
  · rw [target_eq, h] at e
    exact .inl e

/-! ### Turns and steps -/

/-- Every form a statement of the script can take: a read, with or without a failed check, a write, an edge of `rst`. -/
theorem perform_cases (s : State) (a : HostAction) :
    (∃ x n, s.perform a = { s.readInto x with checksFailed := s.checksFailed + n }) ∨
    (∃ x v, (a = .wr x v ∨ (a = .wrR x ∧ v = s.r)) ∧ s.perform a = s.hostWrite x v) ∨
    (∃ l, a = .rst l ∧ s.perform a = s.setRst l) := by
  cases a with
  | rd x => exact .inl ⟨x, 0, rfl⟩
  | wr x v => exact .inr (.inl ⟨x, v, .inl rfl, rfl⟩)
  | wrR x => exact .inr (.inl ⟨x, s.r, .inr ⟨rfl, rfl⟩, rfl⟩)
  | expect x v => exact .inl ⟨x, _, rfl⟩
  | wait => exact .inl ⟨statusAddr, 0, rfl⟩
  | rst l => exact .inr (.inr ⟨l, rfl, rfl⟩)

/-- A step is the engine's completion step of the pending command, or the host's turn. -/
theorem step_cases {s t : State} (h : step s = .next t) :
    (∃ p, s.pending = some p ∧ (p.delay = 0 ∨ s.script = []) ∧ exec (decodeWord p.word) s = .next t) ∨
    ((∀ p, s.pending = some p → p.delay ≠ 0 ∧ s.script ≠ []) ∧ t = s.hostTurn) := by
  rw [step, State.engineWord] at h
  cases hp : s.pending with
  | none =>
    rw [hp] at h; injection h with h
    exact .inr ⟨fun p hp => (by cases hp), h.symm⟩
  | some p =>
    rw [hp] at h
    simp only at h
    by_cases hc : p.delay = 0 ∨ s.script = []
    · rw [if_pos hc] at h; exact .inl ⟨p, rfl, hc, h⟩
    · rw [if_neg hc] at h; injection h with h
      refine .inr ⟨fun q hq => ?_, h.symm⟩
      injection hq with hq; subst hq
      exact not_or.1 hc

/-- The host's turn: nothing, or the next statement carried out after the pending command's wait grows shorter by one. -/
theorem hostTurn_cases (s : State) :
    (s.script = [] ∧ s.hostTurn = s) ∨
    ∃ a rest, s.script = a :: rest ∧ ∃ left : List HostAction, (left = rest ∨ left = a :: rest) ∧
      s.hostTurn = { s.tick.perform a with script := left } := by
  cases hs : s.script with
  | nil => exact .inl ⟨rfl, by rw [State.hostTurn, hs]⟩
  | cons a rest =>
    refine .inr ⟨a, rest, rfl, if repeats a (s.tick.perform a).r then a :: rest else rest, ?_, ?_⟩
    · split
      · exact .inr rfl
      · exact .inl rfl
    · rw [State.hostTurn, hs]

end Sys2Proof.Machine
end

