-- ==== Sys2Proof/Laws/Memory.lean ====
section
/-! SUPPORT. The laws of the buffers' memory: what a write leaves to read, and that every operation keeps the canonical
form. -/

namespace Sys2Proof.Machine

@[simp] theorem Memory.byte?_nil (a : Nat) : Memory.byte? [] a = none := rfl

/-- A read after one write: the value written there, and elsewhere what was there. -/
theorem Memory.byte?_store (m : Memory) (a b : Nat) (v : Byte) :
    (m.store a v).byte? b = if b = a then some v else m.byte? b := by
  induction m with
  | nil =>
    simp only [Memory.store, Memory.byte?]
    by_cases h : b = a
    · rw [if_pos h, if_pos h.symm]
    · rw [if_neg h, if_neg (Ne.symm h)]
  | cons x m ih =>
    obtain ⟨k, w⟩ := x
    simp only [Memory.store]
    by_cases h1 : a < k
    · rw [if_pos h1]
      simp only [Memory.byte?]
      by_cases h : b = a
      · rw [if_pos h, if_pos h.symm]
      · rw [if_neg h, if_neg (Ne.symm h)]
    · rw [if_neg h1]
      by_cases h2 : k = a
      · rw [if_pos h2]
        simp only [Memory.byte?]
        by_cases h : b = a
        · rw [if_pos h, if_pos h.symm]
        · rw [if_neg h, if_neg (Ne.symm h), if_neg (fun e => h (e.symm.trans h2))]
      · rw [if_neg h2]
        simp only [Memory.byte?, ih]
        by_cases h : b = a
        · rw [if_pos h, if_pos h, if_neg (fun e => h2 (e.trans h))]
        · rw [if_neg h, if_neg h]

/-- A read after a run of bytes is written from `a` on. -/
theorem Memory.byte?_storeList (bs : List Byte) (m : Memory) (a b : Nat) :
    (m.storeList a bs).byte? b = if a ≤ b ∧ b < a + bs.length then bs[b - a]? else m.byte? b := by
  induction bs generalizing m a with
  | nil => simp only [Memory.storeList, List.length_nil]; rw [if_neg (by omega)]
  | cons x bs ih =>
    simp only [Memory.storeList, ih, Memory.byte?_store, List.length_cons]
    by_cases h : a + 1 ≤ b ∧ b < a + 1 + bs.length
    · rw [if_pos h, if_pos (by omega), show b - a = (b - (a + 1)) + 1 by omega, List.getElem?_cons_succ]
    · rw [if_neg h]
      by_cases h2 : b = a
      · subst h2; simp
      · rw [if_neg h2, if_neg (by omega)]

/-- A written byte reads as written (R47 leaves only unwritten bytes open). -/
theorem Memory.byteAt_of_some {m : Memory} {a : Nat} {v : Byte} (h : m.byte? a = some v) (draw : Nat) :
    m.byteAt draw a = v := by simp [Memory.byteAt, h]

/-- A read after digits are written from cell `j` on: bytes 0 and 1 of each register are the digit's. -/
theorem Memory.byte?_storeDigits (ds : List (BitVec 16)) (m : Memory) (j b : Nat) :
    (m.storeDigits j ds).byte? b =
      if digitAddr j ≤ b ∧ b < digitAddr j + 4 * ds.length ∧ b % 4 < 2 then
        (ds[(b - digitAddr j) / 4]?).map (fun d => d.extractLsb' (8 * (b % 4)) 8)
      else m.byte? b := by
  induction ds generalizing m j with
  | nil =>
    rw [if_neg (by simp only [List.length_nil]; omega)]
    rfl
  | cons d ds ih =>
    have e : digitAddr (j + 1) = digitAddr j + 4 := by simp only [digitAddr]; omega
    have e4 : digitAddr j % 4 = 0 := by simp only [digitAddr]; omega
    rw [Memory.storeDigits, ih, e]
    generalize digitAddr j = a at e4 ⊢
    by_cases h : a + 4 ≤ b ∧ b < a + 4 + 4 * ds.length ∧ b % 4 < 2
    · rw [if_pos h, if_pos (by simp only [List.length_cons]; omega),
        show (b - a) / 4 = (b - (a + 4)) / 4 + 1 by omega, List.getElem?_cons_succ]
    · rw [if_neg h, Memory.store16, Memory.byte?_storeList]
      by_cases h2 : b = a ∨ b = a + 1
      · rw [if_pos (by simp only [List.length_cons, List.length_nil]; omega),
          if_pos (by simp only [List.length_cons]; omega), show (b - a) / 4 = 0 by omega]
        rcases h2 with rfl | rfl
        · simp [e4]
        · rw [show (a + 1) % 4 = 1 by omega]
          simp
      · rw [if_neg (by simp only [List.length_cons, List.length_nil]; omega),
          if_neg (by simp only [List.length_cons]; omega)]

/-- A cell that becomes UNSPEC leaves every byte outside it alone. -/
theorem Memory.byte?_disturb_of_outside (m : Memory) (draw width a b : Nat) (h : b < a ∨ a + width ≤ b) :
    (m.disturb draw width a).byte? b = m.byte? b := by
  unfold Memory.disturb
  split
  · rfl
  · rw [Memory.byte?_storeList, if_neg]
    simp only [List.length_take, bytesOfWord, List.length_cons, List.length_nil]
    omega

/-- Cells that become UNSPEC leave every byte outside all of them alone. -/
theorem Memory.byte?_disturbCells_of_outside (n : Nat) (m : Memory) (draw width stride a b : Nat)
    (h : ∀ j < n, b < a + stride * j ∨ a + stride * j + width ≤ b) :
    (m.disturbCells draw width stride a n).byte? b = m.byte? b := by
  induction n generalizing m a with
  | zero => rfl
  | succ n ih =>
    rw [Memory.disturbCells, ih]
    · exact Memory.byte?_disturb_of_outside _ _ _ _ _ (by simpa using h 0 (by omega))
    · intro j hj
      have := h (j + 1) (by omega)
      rw [Nat.mul_add, Nat.mul_one] at this
      omega

/-! ### The canonical form -/

theorem Memory.mem_store {m : Memory} {a : Nat} {v : Byte} {x : Host.Cell} (h : x ∈ m.store a v) :
    x = (a, v) ∨ x ∈ m := by
  induction m with
  | nil => simpa [Memory.store] using h
  | cons y m ih =>
    obtain ⟨k, w⟩ := y
    unfold Memory.store at h
    split at h
    · simpa using h
    · split at h
      · rcases List.mem_cons.1 h with h | h
        · exact .inl h
        · exact .inr (List.mem_cons_of_mem _ h)
      · rcases List.mem_cons.1 h with h | h
        · exact .inr (h ▸ List.mem_cons_self ..)
        · rcases ih h with h | h
          · exact .inl h
          · exact .inr (List.mem_cons_of_mem _ h)

theorem Memory.wf_store {m : Memory} (h : m.wf) (a : Nat) (v : Byte) : (m.store a v).wf := by
  induction m with
  | nil => simp [Memory.store, Memory.wf]
  | cons y m ih =>
    obtain ⟨k, w⟩ := y
    have hc := List.pairwise_cons.1 h
    unfold Memory.store
    split
    · rename_i hlt
      refine List.pairwise_cons.2 ⟨?_, h⟩
      intro x hx
      rcases List.mem_cons.1 hx with rfl | hx
      · exact hlt
      · exact lt_trans hlt (hc.1 x hx)
    · split
      · rename_i hk
        subst hk
        exact List.pairwise_cons.2 ⟨fun x hx => hc.1 x hx, hc.2⟩
      · rename_i h1 h2
        refine List.pairwise_cons.2 ⟨?_, ih hc.2⟩
        intro x hx
        rcases Memory.mem_store hx with rfl | hx
        · show k < a; omega
        · exact hc.1 x hx

theorem Memory.wf_storeList (bs : List Byte) {m : Memory} (h : m.wf) (a : Nat) : (m.storeList a bs).wf := by
  induction bs generalizing m a with
  | nil => exact h
  | cons b bs ih => exact ih (Memory.wf_store h a b) (a + 1)

theorem Memory.wf_store16 {m : Memory} (h : m.wf) (a : Nat) (v : BitVec 16) : (m.store16 a v).wf :=
  Memory.wf_storeList _ h a

theorem Memory.wf_store32 {m : Memory} (h : m.wf) (a : Nat) (w : Word) : (m.store32 a w).wf :=
  Memory.wf_storeList _ h a

theorem Memory.wf_storeDigits (ds : List (BitVec 16)) {m : Memory} (h : m.wf) (j : Nat) :
    (m.storeDigits j ds).wf := by
  induction ds generalizing m j with
  | nil => exact h
  | cons d ds ih => exact ih (Memory.wf_store16 h _ d) (j + 1)

theorem Memory.wf_disturb {m : Memory} (h : m.wf) (draw width a : Nat) : (m.disturb draw width a).wf := by
  unfold Memory.disturb
  split
  · exact h
  · exact Memory.wf_storeList _ h a

theorem Memory.wf_disturbCells (n : Nat) {m : Memory} (h : m.wf) (draw width stride a : Nat) :
    (m.disturbCells draw width stride a n).wf := by
  induction n generalizing m a with
  | zero => exact h
  | succ n ih => exact ih (Memory.wf_disturb h draw width a) _

theorem abandonedMem_wf {m : Memory} (h : m.wf) (p : Config.Params) (draw : Nat) (i : Instr) (o : Snapshot) :
    (abandonedMem p draw i o m).wf := by
  cases i <;> simp only [abandonedMem] <;> try exact h
  · exact Memory.wf_disturbCells _ h _ _ _ _
  · split
    · exact Memory.wf_disturbCells _ h _ _ _ _
    · exact h
  · split
    · exact Memory.wf_disturbCells _ h _ _ _ _
    · exact h

/-- Reset lists nothing, in canonical form. -/
theorem reset_mem_wf : State.reset.mem.wf := List.Pairwise.nil

end Sys2Proof.Machine
end

