-- ==== Sys2Proof/Laws/Words.lean ====
section
/-! SUPPORT. Bytes, fields and words as numbers. -/

namespace Sys2Proof

theorem append_toNat {n m : Nat} (x : BitVec n) (y : BitVec m) : (x ++ y).toNat = x.toNat * 2 ^ m + y.toNat := by
  rw [BitVec.toNat_append, ← Nat.shiftLeft_add_eq_or_of_lt y.isLt, Nat.shiftLeft_eq]

theorem extract_toNat {n : Nat} (x : BitVec n) (lo len : Nat) :
    (x.extractLsb' lo len).toNat = x.toNat / 2 ^ lo % 2 ^ len := by
  rw [BitVec.extractLsb'_toNat, Nat.shiftRight_eq_div_pow]

theorem wordOfBytes_toNat (b0 b1 b2 b3 : Byte) :
    (wordOfBytes b0 b1 b2 b3).toNat = b0.toNat + b1.toNat * 2 ^ 8 + b2.toNat * 2 ^ 16 + b3.toNat * 2 ^ 24 := by
  simp only [wordOfBytes, append_toNat]; omega

theorem lane_toNat (w : Word) (i : Nat) : (lane w i).toNat = w.toNat / 2 ^ (8 * i) % 2 ^ 8 := extract_toNat w _ _

/-- The four lanes of a word make the word. -/
theorem wordOfBytes_lanes (w : Word) : wordOfBytes (lane w 0) (lane w 1) (lane w 2) (lane w 3) = w := by
  apply BitVec.eq_of_toNat_eq
  have := w.isLt
  simp only [wordOfBytes_toNat, lane_toNat]; omega

theorem opField_toNat (w : Word) : (opField w).toNat = w.toNat % 16 := by
  rw [opField, extract_toNat]; omega

theorem mbzField_toNat (w : Word) : (mbzField w).toNat = w.toNat / 16 := by
  have := w.isLt
  rw [mbzField, extract_toNat]; omega

/-- The decoder on the bytes of a word is the decoder of words. -/
theorem decode_bytesOfWord (w : Word) : decode (bytesOfWord w) = .ok (decodeWord w) := by
  simp only [bytesOfWord, decode, wordOfBytes_lanes]

end Sys2Proof
end

