-- ==== Sys2Proof/Laws/Ops.lean ====
section
/-! SUPPORT. What the shared operations do, said once: completion with either outcome as the state `afterOk` or
`afterError` (R103, R111), and what each result write leaves. -/

namespace Sys2Proof.Machine

/-! ### Completion -/

theorem State.commit_error {α : Type} (s : State) (e : CmdError) (write : State → α → State) :
    s.commit (.error e) write = s.afterError e.detail e.pos e.slot s.mem := rfl

theorem State.commit_ok {α : Type} (s : State) (a : α) (write : State → α → State) :
    s.commit (.ok a) write = (write s a).recordOk := rfl

/-- A result write that leaves registers `g` and buffers `m`, and the Ok record after it. -/
theorem State.recordOk_eq_afterOk (s : State) (g : Regs) (m : Memory) :
    State.recordOk { s with regs := g, mem := m } = s.afterOk g m := rfl

theorem State.commit_writeDigits (s : State) (ds : List Nat) :
    s.commit (.ok ds) State.writeDigits =
      s.afterOk { s.regs with ndig := BitVec.ofNat 7 ds.length } (s.mem.storeDigits 0 (digitCells ds)) := by
  rw [State.commit_ok, State.writeDigits, State.recordOk_eq_afterOk]

theorem State.commit_writeVal (s : State) (v : Nat) :
    s.commit (.ok v) State.writeVal =
      s.afterOk { s.regs with valLo := BitVec.ofNat 32 v, valHi := BitVec.ofNat 32 (v / 2 ^ 32) } s.mem := rfl

theorem State.commit_writeTuple (s : State) (t : List Nat) :
    s.commit (.ok t) State.writeTuple =
      s.afterOk { s.regs with
        idxOut0 := tupleSlot t 0, idxOut1 := tupleSlot t 1, idxOut2 := tupleSlot t 2,
        idxOutCnt := BitVec.ofNat 2 t.length } s.mem := rfl

theorem State.commit_writeBlock (s : State) (bs : List Byte) :
    s.commit (.ok bs) State.writeBlock =
      s.afterOk { s.regs with blkOut := blockWord bs, blkOutLen := BitVec.ofNat 3 bs.length } s.mem := rfl

theorem State.commit_writeEntries (s : State) (ts : List (List Nat)) :
    s.commit (.ok ts) State.writeEntries =
      s.afterOk { s.regs with grpCnt := BitVec.ofNat 16 ts.length }
        (s.mem.storeList (groupAddr 0 0) (ts.flatMap entryBytes)) := by
  rw [State.commit_ok, State.writeEntries, State.recordOk_eq_afterOk]

theorem State.commit_writeSeq (s : State) (bs : List Byte) :
    s.commit (.ok bs) State.writeSeq =
      s.afterOk { s.regs with seqLen := BitVec.ofNat 16 bs.length } (s.mem.storeList (byteAddr 0) bs) := by
  rw [State.commit_ok, State.writeSeq, State.recordOk_eq_afterOk]

theorem State.commit_writeNothing (s : State) :
    s.commit (.ok ()) State.writeNothing = s.afterOk s.regs s.mem := rfl

/-! ### The commands, by their outcomes -/

theorem exec_nop (s : State) : exec .nop s = .next (s.afterOk s.regs s.mem) := rfl

theorem exec_tobase (s : State) :
    exec .tobase s = .next (s.commit (tobaseOutcome s.operands) State.writeDigits) := rfl

theorem exec_frombase (s : State) :
    exec .frombase s = .next (s.commit (frombaseOutcome s.operands s.draws) State.writeVal) := rfl

theorem exec_encblk (s : State) :
    exec .encblk s = .next (s.commit (encblkOutcome s.operands) State.writeTuple) := rfl

theorem exec_decblk (s : State) :
    exec .decblk s = .next (s.commit (decblkOutcome s.operands) State.writeBlock) := rfl

theorem exec_xlate (s : State) :
    exec .xlate s = .next (s.commit (xlateOutcome s.operands) State.writeTuple) := rfl

theorem exec_encseq (s : State) :
    exec .encseq s = .next (s.commit (encseqOutcome s.params s.operands s.draws) State.writeEntries) := rfl

theorem exec_decseq (s : State) :
    exec .decseq s = .next
      ((decseqDisturbed s (decseqOutcome s.params s.operands s.draws)).commit
        (decseqOutcome s.params s.operands s.draws) State.writeSeq) := rfl

theorem exec_badOpReservedOpcode (op : BitVec 4) (s : State) :
    exec (.badOpReservedOpcode op) s = .next (s.afterError .badOp 0#16 0#2 s.mem) := rfl

theorem exec_badOpReservedBits (mbz : BitVec 28) (op : BitVec 4) (s : State) :
    exec (.badOpReservedBits mbz op) s = .next (s.afterError .badOp 0#16 0#2 s.mem) := rfl

/-- Only BYTE_BUF[0..4 GRP_CNT) can differ in the state in which DECSEQ records an error (R100). -/
theorem decseqDisturbed_eq (s : State) (outcome : Except CmdError (List Byte)) :
    decseqDisturbed s outcome = s ∨
      ∃ e, outcome = .error e ∧ e.detail ≠ .seqRange ∧
        decseqDisturbed s outcome = s.disturbSeq s.operands.regs.grpCnt.toNat := by
  unfold decseqDisturbed
  split
  · exact .inl rfl
  · split
    · exact .inl rfl
    · exact .inr ⟨_, rfl, ‹_›, rfl⟩

/-! ### Result words -/

/-- The lanes of BLK_OUT are the bytes of the block, those above its length 0 (R62, R87). -/
theorem lane_blockWord {bs : List Byte} (h : bs.length ≤ 4) {i : Nat} (hi : i < 4) :
    lane (blockWord bs) i = bs.getD i 0#8 := by
  apply BitVec.eq_of_toNat_eq
  rw [lane_toNat, blockWord, BitVec.toNat_ofNat]
  match bs, h with
  | [], _ => interval_cases i <;> rfl
  | [a], _ =>
    have := a.isLt
    interval_cases i <;> simp [blockValue, fromBase] <;> omega
  | [a, b], _ =>
    have := a.isLt; have := b.isLt
    interval_cases i <;> simp [blockValue, fromBase] <;> omega
  | [a, b, c], _ =>
    have := a.isLt; have := b.isLt; have := c.isLt
    interval_cases i <;> simp [blockValue, fromBase] <;> omega
  | [a, b, c, d], _ =>
    have := a.isLt; have := b.isLt; have := c.isLt; have := d.isLt
    interval_cases i <;> simp [blockValue, fromBase] <;> omega
  | _ :: _ :: _ :: _ :: _ :: _, h => simp only [List.length_cons] at h; omega

/-! ### Cells that were written -/

theorem Memory.cell16_of_bytes {m : Memory} {a : Nat} {v : BitVec 16} (h0 : m.byte? a = some (v.extractLsb' 0 8))
    (h1 : m.byte? (a + 1) = some (v.extractLsb' 8 8)) (draw : Nat) : m.cell16 draw a = v := by
  rw [Memory.cell16, Memory.byteAt_of_some h0, Memory.byteAt_of_some h1]
  apply BitVec.eq_of_toNat_eq
  have := v.isLt
  rw [append_toNat, extract_toNat, extract_toNat]; omega

theorem Memory.cell32_of_bytes {m : Memory} {a : Nat} {v : Word}
    (h : ∀ i, i < 4 → m.byte? (a + i) = some (lane v i)) (draw : Nat) : m.cell32 draw a = v := by
  rw [Memory.cell32, Memory.byteAt_of_some (by simpa using h 0), Memory.byteAt_of_some (h 1 (by omega)),
    Memory.byteAt_of_some (h 2 (by omega)), Memory.byteAt_of_some (h 3 (by omega)), wordOfBytes_lanes]

/-- Cells whose bytes are as they were read as they did. -/
theorem Memory.cell32_congr {m m' : Memory} {a : Nat} (h : ∀ i, i < 4 → m.byte? (a + i) = m'.byte? (a + i))
    (draw : Nat) : m.cell32 draw a = m'.cell32 draw a := by
  simp only [Memory.cell32, Memory.byteAt]
  rw [show m.byte? a = m'.byte? a from h 0 (by omega), h 1 (by omega), h 2 (by omega), h 3 (by omega)]

/-- The sixteen bytes of an entry are the lanes of its four words. -/
theorem entryBytes_length (t : List Nat) : (entryBytes t).length = 16 := rfl

theorem entryBytes_getElem? (t : List Nat) {j i : Nat} (hj : j < 4) (hi : i < 4) :
    (entryBytes t)[4 * j + i]? = some (lane ((entryWords t).getD j 0#32) i) := by
  interval_cases j <;> interval_cases i <;> rfl

theorem entries_length (ts : List (List Nat)) : (ts.flatMap entryBytes).length = 16 * ts.length := by
  induction ts with
  | nil => rfl
  | cons t ts ih => rw [List.flatMap_cons, List.length_append, ih, entryBytes_length, List.length_cons]; omega

/-- Entry `k` of the entries written one after another. -/
theorem entries_getElem? (ts : List (List Nat)) (k n : Nat) (hn : n < 16) :
    (ts.flatMap entryBytes)[16 * k + n]? = (ts[k]?).bind (fun t => (entryBytes t)[n]?) := by
  induction ts generalizing k with
  | nil => simp
  | cons t ts ih =>
    rw [List.flatMap_cons]
    cases k with
    | zero => rw [List.getElem?_append_left (by rw [entryBytes_length]; omega)]; simp
    | succ k =>
      rw [List.getElem?_append_right (by rw [entryBytes_length]; omega), entryBytes_length,
        show 16 * (k + 1) + n - 16 = 16 * k + n by omega, ih]
      simp

end Sys2Proof.Machine
end

