-- ==== Sys2Proof/Laws/Exec.lean ====
section
/-! SUPPORT. What a command can do, said once: no outcome is an error without a detail (R110), the two forms of the state
after it (R103, R104, R111), and every form its buffers can take. -/

namespace Sys2Proof.Machine

/-- A run of one step more. -/
theorem core_run_succ {s t : State} (h : step s = .next t) (k : Nat) :
    Sys2Proof.core.run (k + 1) s = Sys2Proof.core.run k t := by
  have h' : Sys2Proof.core.step s = .next t := h
  rw [show Sys2Proof.core.run (k + 1) s = _ from Host.Core.run.eq_2 Sys2Proof.core s k, h']

/-! ### Outcomes -/

theorem decodeBlock_error_ne {c : Nat} {s : List CodecSlot} {e : CmdError} (h : decodeBlock c s = .error e) :
    e.detail ≠ .none ∧ e.detail ≠ .seqRange := by
  have := (decodeBlock_error_detail h).1
  constructor <;> intro h' <;> rw [h'] at this <;> simp at this

theorem decodeGroups_error_ne (gs : List (Nat × List CodecSlot)) (k : Nat) (e : CmdError)
    (h : decodeGroups k gs = .error e) : e.detail ≠ .none ∧ e.detail ≠ .seqRange := by
  induction gs generalizing k e with
  | nil => cases h
  | cons g gs ih =>
    rw [decodeGroups] at h
    split at h
    · rename_i e' he'
      cases h
      exact ⟨(decodeBlock_error_ne he').1, (decodeBlock_error_ne he').2⟩
    · split at h
      · rename_i he'; cases h; exact ih _ _ he'
      · cases h

theorem tobaseOutcome_error {o : Snapshot} {e : CmdError} (h : tobaseOutcome o = .error e) : e.detail ≠ .none := by
  unfold tobaseOutcome at h; split at h <;> cases h; simp [CmdError.plain]

theorem frombaseOutcome_error {o : Snapshot} {d : Nat} {e : CmdError} (h : frombaseOutcome o d = .error e) :
    e.detail ≠ .none := by
  unfold frombaseOutcome at h
  split at h
  · cases h; simp [CmdError.plain]
  split at h
  · cases h; simp [CmdError.plain]
  split at h
  · cases h; simp [CmdError.atPos]
  split at h <;> cases h; simp [CmdError.plain]

theorem encblkOutcome_error {o : Snapshot} {e : CmdError} (h : encblkOutcome o = .error e) : e.detail ≠ .none := by
  unfold encblkOutcome at h
  split at h
  · cases h; simp [CmdError.plain]
  · unfold encodeBlock at h
    split at h <;> cases h; simp [CmdError.atSlot]

theorem xlateOutcome_error {o : Snapshot} {e : CmdError} (h : xlateOutcome o = .error e) : e.detail ≠ .none := by
  unfold xlateOutcome at h
  split at h
  · cases h; simp [CmdError.plain]
  · cases h

theorem encseqOutcome_error {p : Config.Params} {o : Snapshot} {d : Nat} {e : CmdError}
    (h : encseqOutcome p o d = .error e) : e.detail ≠ .none := by
  unfold encseqOutcome at h; split at h <;> cases h; simp [CmdError.plain]

/-- DECSEQ ends in SEQ_RANGE exactly when GRP_CNT is above GROUP_ENTRIES (R99). -/
theorem decseqOutcome_error {p : Config.Params} {o : Snapshot} {d : Nat} {e : CmdError}
    (h : decseqOutcome p o d = .error e) :
    e.detail ≠ .none ∧ (e.detail ≠ .seqRange → o.regs.grpCnt.toNat ≤ p.groupEntries) := by
  unfold decseqOutcome at h; split at h
  · cases h; simp [CmdError.plain]
  · exact ⟨(decodeGroups_error_ne _ _ _ h).1, fun _ => by omega⟩

/-- The decoded bytes of groups: at most four for each. -/
theorem decodeGroups_ok_length (gs : List (Nat × List CodecSlot)) (k : Nat) (bs : List Byte)
    (hg : ∀ g ∈ gs, g.1 ≤ g.2.length) (h : decodeGroups k gs = .ok bs) : bs.length ≤ 4 * gs.length := by
  induction gs generalizing k bs with
  | nil => cases h; simp
  | cons g gs ih =>
    rw [decodeGroups] at h
    split at h
    · cases h
    · rename_i out ho
      split at h
      · cases h
      · rename_i rest hr
        cases h
        have h1 := (decodeBlock_ok_length (hg g (by simp)) ho).2
        have h2 := ih _ _ (fun g hg' => hg g (by simp [hg'])) hr
        simp only [List.length_append, List.length_cons]; omega

theorem decseqOutcome_ok {p : Config.Params} {o : Snapshot} {d : Nat} {bs : List Byte}
    (h : decseqOutcome p o d = .ok bs) : bs.length ≤ 4 * o.regs.grpCnt.toNat ∧ bs.length ≤ p.bufBytes := by
  unfold decseqOutcome at h; split at h
  · cases h
  · have := decodeGroups_ok_length _ _ _ (fun g hg => ?_) h
    · simp only [Snapshot.groups, List.length_map, List.length_range] at this
      refine ⟨this, ?_⟩
      simp only [Config.Params.bufBytes]; omega
    · simp only [Snapshot.groups, List.mem_map] at hg
      obtain ⟨k, _, rfl⟩ := hg
      have := ((o.mem.cell32 d (groupAddr k 0)).extractLsb' 0 2).isLt
      simp only [Snapshot.group, List.length_cons, List.length_nil]; omega

/-! ### The state after a command -/

/-- The registers with those of `s` in the place of the result registers of `i` (R51). -/
def Regs.withResultsOf (g : Regs) (i : Instr) (s : Regs) : Regs :=
  match i with
  | .nop => g
  | .tobase => { g with ndig := s.ndig }
  | .frombase => { g with valLo := s.valLo, valHi := s.valHi }
  | .encblk => { g with idxOut0 := s.idxOut0, idxOut1 := s.idxOut1, idxOut2 := s.idxOut2, idxOutCnt := s.idxOutCnt }
  | .decblk => { g with blkOut := s.blkOut, blkOutLen := s.blkOutLen }
  | .xlate => { g with idxOut0 := s.idxOut0, idxOut1 := s.idxOut1, idxOut2 := s.idxOut2, idxOutCnt := s.idxOutCnt }
  | .encseq => { g with grpCnt := s.grpCnt }
  | .decseq => { g with seqLen := s.seqLen }
  | .badOpReservedOpcode _ => g
  | .badOpReservedBits _ _ => g

theorem exec_next (i : Instr) (s : State) : ∃ t, exec i s = .next t := by cases i <;> exact ⟨_, rfl⟩

/-- After a command: an error and no result register written, or Ok and none written but its own result
registers. -/
theorem exec_cases {i : Instr} {s t : State} (h : exec i s = .next t) :
    (∃ d pos slot m, d ≠ Detail.none ∧ t = s.afterError d pos slot m ∧ (i ≠ .decseq → m = s.mem)) ∨
    (∃ g m, t = s.afterOk g m ∧ g.withResultsOf i s.regs = s.regs) := by
  cases i
  case nop => rw [exec_nop] at h; injection h with h; exact .inr ⟨_, _, h.symm, rfl⟩
  case badOpReservedOpcode op =>
    rw [exec_badOpReservedOpcode] at h; injection h with h
    exact .inl ⟨_, _, _, _, by decide, h.symm, fun _ => rfl⟩
  case badOpReservedBits mbz op =>
    rw [exec_badOpReservedBits] at h; injection h with h
    exact .inl ⟨_, _, _, _, by decide, h.symm, fun _ => rfl⟩
  case tobase =>
    rw [exec_tobase] at h
    cases ho : tobaseOutcome s.operands with
    | ok a => rw [ho, State.commit_writeDigits] at h; injection h with h; exact .inr ⟨_, _, h.symm, rfl⟩
    | error e =>
      rw [ho, State.commit_error] at h; injection h with h
      exact .inl ⟨_, _, _, _, tobaseOutcome_error ho, h.symm, fun _ => rfl⟩
  case frombase =>
    rw [exec_frombase] at h
    cases ho : frombaseOutcome s.operands s.draws with
    | ok a => rw [ho, State.commit_writeVal] at h; injection h with h; exact .inr ⟨_, _, h.symm, rfl⟩
    | error e =>
      rw [ho, State.commit_error] at h; injection h with h
      exact .inl ⟨_, _, _, _, frombaseOutcome_error ho, h.symm, fun _ => rfl⟩
  case encblk =>
    rw [exec_encblk] at h
    cases ho : encblkOutcome s.operands with
    | ok a => rw [ho, State.commit_writeTuple] at h; injection h with h; exact .inr ⟨_, _, h.symm, rfl⟩
    | error e =>
      rw [ho, State.commit_error] at h; injection h with h
      exact .inl ⟨_, _, _, _, encblkOutcome_error ho, h.symm, fun _ => rfl⟩
  case decblk =>
    rw [exec_decblk] at h
    cases ho : decblkOutcome s.operands with
    | ok a => rw [ho, State.commit_writeBlock] at h; injection h with h; exact .inr ⟨_, _, h.symm, rfl⟩
    | error e =>
      rw [ho, State.commit_error] at h; injection h with h
      exact .inl ⟨_, _, _, _, (decodeBlock_error_ne ho).1, h.symm, fun _ => rfl⟩
  case xlate =>
    rw [exec_xlate] at h
    cases ho : xlateOutcome s.operands with
    | ok a => rw [ho, State.commit_writeTuple] at h; injection h with h; exact .inr ⟨_, _, h.symm, rfl⟩
    | error e =>
      rw [ho, State.commit_error] at h; injection h with h
      exact .inl ⟨_, _, _, _, xlateOutcome_error ho, h.symm, fun _ => rfl⟩
  case encseq =>
    rw [exec_encseq] at h
    cases ho : encseqOutcome s.params s.operands s.draws with
    | ok a => rw [ho, State.commit_writeEntries] at h; injection h with h; exact .inr ⟨_, _, h.symm, rfl⟩
    | error e =>
      rw [ho, State.commit_error] at h; injection h with h
      exact .inl ⟨_, _, _, _, encseqOutcome_error ho, h.symm, fun _ => rfl⟩
  case decseq =>
    rw [exec_decseq] at h
    cases ho : decseqOutcome s.params s.operands s.draws with
    | ok a =>
      rw [ho, decseqDisturbed, State.commit_writeSeq] at h; injection h with h
      exact .inr ⟨_, _, h.symm, rfl⟩
    | error e =>
      rw [ho, State.commit_error] at h; injection h with h
      have hd := (decseqOutcome_error ho).1
      rcases decseqDisturbed_eq s (.error e) with h' | ⟨e', _, _, h'⟩ <;> rw [h'] at h
      · exact .inl ⟨_, _, _, _, hd, h.symm, fun h => absurd rfl h⟩
      · exact .inl ⟨_, e.pos, e.slot, _, hd, h.symm, fun h => absurd rfl h⟩

/-- Every form the buffers can take after a command. -/
theorem exec_mem {i : Instr} {s t : State} (h : exec i s = .next t) :
    t.mem = s.mem ∨
    (i = .tobase ∧ ∃ ds, t.mem = s.mem.storeDigits 0 (digitCells ds)) ∨
    (i = .encseq ∧ ∃ ts : List (List Nat), ts.length ≤ s.params.groupEntries ∧
      t.mem = s.mem.storeList (groupAddr 0 0) (ts.flatMap entryBytes)) ∨
    (i = .decseq ∧ ∃ bs : List Byte, bs.length ≤ s.params.bufBytes ∧ t.mem = s.mem.storeList (byteAddr 0) bs) ∨
    (i = .decseq ∧ s.operands.regs.grpCnt.toNat ≤ s.params.groupEntries ∧
      t.mem = s.mem.disturbCells s.draws 1 1 (byteAddr 0) (4 * s.operands.regs.grpCnt.toNat)) := by
  cases i
  case nop => injection h with h; subst h; exact .inl rfl
  case badOpReservedOpcode op => injection h with h; subst h; exact .inl rfl
  case badOpReservedBits mbz op => injection h with h; subst h; exact .inl rfl
  case frombase =>
    rw [exec_frombase] at h; injection h with h; subst h
    cases frombaseOutcome s.operands s.draws <;> exact .inl rfl
  case encblk =>
    rw [exec_encblk] at h; injection h with h; subst h
    cases encblkOutcome s.operands <;> exact .inl rfl
  case decblk =>
    rw [exec_decblk] at h; injection h with h; subst h
    cases decblkOutcome s.operands <;> exact .inl rfl
  case xlate =>
    rw [exec_xlate] at h; injection h with h; subst h
    cases xlateOutcome s.operands <;> exact .inl rfl
  case tobase =>
    rw [exec_tobase] at h; injection h with h; subst h
    cases tobaseOutcome s.operands with
    | ok ds => exact .inr (.inl ⟨rfl, ds, by rw [State.commit_writeDigits, State.afterOk]⟩)
    | error e => exact .inl rfl
  case encseq =>
    rw [exec_encseq] at h; injection h with h; subst h
    unfold encseqOutcome
    split
    · exact .inl rfl
    · rename_i hn
      refine .inr (.inr (.inl ⟨rfl, _, ?_, by rw [State.commit_writeEntries, State.afterOk]⟩))
      have hl : ∀ bs : List Byte, (partition bs).length ≤ (bs.length + 3) / 4 := by
        intro bs
        induction bs using partition.induct with
        | case1 => simp [partition]
        | case2 b0 b1 b2 b3 rest ih => simp only [partition, List.length_cons]; omega
        | case3 bs h0 h1 =>
          rw [partition.eq_3 _ h0 h1]
          have : 1 ≤ bs.length := List.length_pos_of_ne_nil h0
          simp only [List.length_singleton]; omega
      have := hl (s.operands.seqBytes s.draws)
      simp only [Snapshot.seqBytes, List.length_map, List.length_range] at this ⊢
      simp only [Config.Params.bufBytes] at hn
      omega
  case decseq =>
    rw [exec_decseq] at h; injection h with h; subst h
    cases ho : decseqOutcome s.params s.operands s.draws with
    | ok bs =>
      exact .inr (.inr (.inr (.inl ⟨rfl, bs, (decseqOutcome_ok ho).2,
        by rw [decseqDisturbed, State.commit_writeSeq, State.afterOk]⟩)))
    | error e =>
      rcases decseqDisturbed_eq s (.error e) with h' | ⟨e', he, hd, h'⟩ <;> rw [h']
      · exact .inl rfl
      · injection he with he; subst he
        exact .inr (.inr (.inr (.inr ⟨rfl, (decseqOutcome_error ho).2 hd, rfl⟩)))

end Sys2Proof.Machine
end

