-- ==== Sys2Proof/Laws/PerInstr.lean ====
section
/-! SUPPORT. The encoding of every constructor against its row of spec/opcode_table.json: the row's mask and match, and the
condition that R59 puts on the free bits of the two reserved classes. -/

namespace Sys2Proof.Laws.MatchesRow

/-- The "mask" of the row of each constructor. -/
def rowMask : Instr → Word
  | .nop => 0xFFFFFFFF#32
  | .tobase => 0xFFFFFFFF#32
  | .frombase => 0xFFFFFFFF#32
  | .encblk => 0xFFFFFFFF#32
  | .decblk => 0xFFFFFFFF#32
  | .xlate => 0xFFFFFFFF#32
  | .encseq => 0xFFFFFFFF#32
  | .decseq => 0xFFFFFFFF#32
  | .badOpReservedOpcode _ => 0xFFFFFFF8#32
  | .badOpReservedBits _ _ => 0x00000000#32

/-- The "match" of the row of each constructor. -/
def rowMatch : Instr → Word
  | .nop => 0x00000000#32
  | .tobase => 0x00000001#32
  | .frombase => 0x00000002#32
  | .encblk => 0x00000003#32
  | .decblk => 0x00000004#32
  | .xlate => 0x00000005#32
  | .encseq => 0x00000006#32
  | .decseq => 0x00000007#32
  | .badOpReservedOpcode _ => 0x00000008#32
  | .badOpReservedBits _ _ => 0x00000000#32

/-- Whether the row is the last, whose mask accepts every word and which holds only where no row above does. -/
def lastRow : Instr → Bool
  | .nop => false
  | .tobase => false
  | .frombase => false
  | .encblk => false
  | .decblk => false
  | .xlate => false
  | .encseq => false
  | .decseq => false
  | .badOpReservedOpcode _ => false
  | .badOpReservedBits _ _ => true

/-- The command word of a well-formed instruction has its row's bits, and bits [31:4] not 0 exactly in the last row. -/
def Statement (i : Instr) : Prop :=
  i.wellFormed = true →
    encode i &&& rowMask i = rowMatch i ∧ (16 ≤ (encode i).toNat ↔ lastRow i = true)

theorem nop : Statement .nop := fun _ => by decide
theorem tobase : Statement .tobase := fun _ => by decide
theorem frombase : Statement .frombase := fun _ => by decide
theorem encblk : Statement .encblk := fun _ => by decide
theorem decblk : Statement .decblk := fun _ => by decide
theorem xlate : Statement .xlate := fun _ => by decide
theorem encseq : Statement .encseq := fun _ => by decide
theorem decseq : Statement .decseq := fun _ => by decide

theorem badOpReservedOpcode (op : BitVec 4) : Statement (.badOpReservedOpcode op) := by
  revert op; unfold Statement; decide

theorem badOpReservedBits (mbz : BitVec 28) (op : BitVec 4) : Statement (.badOpReservedBits mbz op) := by
  intro h
  have hm : mbz.toNat ≠ 0 := fun e => by
    have : mbz = 0#28 := BitVec.eq_of_toNat_eq e
    simp [Instr.wellFormed, this] at h
  refine ⟨BitVec.and_zero, ?_⟩
  have : (encode (.badOpReservedBits mbz op)).toNat = mbz.toNat * 2 ^ 4 + op.toNat := append_toNat mbz op
  rw [this]
  exact ⟨fun _ => rfl, fun _ => by omega⟩

end Sys2Proof.Laws.MatchesRow
end

