-- ==== Sys2Proof/Tests/Slice0.lean ====
section
/-! SUPPORT. Tests on fixed values, each value from the spec (95_test_vectors.md where it has one), and for every statement
of Certificates/Slice0/Obligations.lean with hypotheses a state and operands that meet them, clause by clause. -/

namespace Sys2Proof.Tests

open Sys2Proof.Machine

/-! ### Helpers -/

/-- Registers `g` and buffers `m`, all else as after reset. -/
def idle (g : Regs) (m : Memory) : State := { State.reset with regs := g, mem := m }

/-- The state one step after the command word `w` is accepted in `s`. -/
def ran (s : State) (w : Nat) : State :=
  match step (s.withFetchWord 32 w) with
  | .next t => t
  | .fault _ => s
  | .refused _ => s

/-- DIGIT_BUF[0], DIGIT_BUF[1], ... hold these digits, every other cell unwritten. -/
def digitMem (ds : List Nat) : Memory := Memory.storeDigits [] 0 (ds.map (BitVec.ofNat 16))

/-- BYTE_BUF[0], BYTE_BUF[1], ... hold these bytes. -/
def byteMem (bs : List Byte) : Memory := Memory.storeList [] 0x10000 bs

/-- GROUP_BUF holds these words from GROUP_BUF[0].HDR on. -/
def groupMem (ws : List Word) : Memory := Memory.storeList [] 0x40000 (ws.flatMap bytesOfWord)

/-- The reset state with the command `w` pending and its latency over. -/
def busy (w : Nat) : State := State.reset.withFetchWord 32 w

/-! ### Well-formed terms (R59) -/

theorem test_wf_refuses_reserved_opcode_below_8 : (Instr.badOpReservedOpcode 7#4).wellFormed = false := by decide
theorem test_wf_refuses_reserved_bits_zero : (Instr.badOpReservedBits 0#28 3#4).wellFormed = false := by decide
theorem test_wf_accepts :
    (Instr.badOpReservedOpcode 8#4).wellFormed = true ∧ (Instr.badOpReservedOpcode 15#4).wellFormed = true ∧
      (Instr.badOpReservedBits 1#28 0#4).wellFormed = true ∧ Instr.decseq.wellFormed = true := by decide

/-! ### Decoding, each word written out from R58 and R59 -/

theorem test_decode_nop : decodeWord 0b00000000000000000000000000000000#32 = .nop := by decide
theorem test_decode_tobase : decodeWord 0b00000000000000000000000000000001#32 = .tobase := by decide
theorem test_decode_frombase : decodeWord 0b00000000000000000000000000000010#32 = .frombase := by decide
theorem test_decode_encblk : decodeWord 0b00000000000000000000000000000011#32 = .encblk := by decide
theorem test_decode_decblk : decodeWord 0b00000000000000000000000000000100#32 = .decblk := by decide
theorem test_decode_xlate : decodeWord 0b00000000000000000000000000000101#32 = .xlate := by decide
theorem test_decode_encseq : decodeWord 0b00000000000000000000000000000110#32 = .encseq := by decide
theorem test_decode_decseq : decodeWord 0b00000000000000000000000000000111#32 = .decseq := by decide
theorem test_decode_reserved_opcode :
    decodeWord 0b00000000000000000000000000001000#32 = .badOpReservedOpcode 8#4 ∧
      decodeWord 0b00000000000000000000000000001111#32 = .badOpReservedOpcode 15#4 := by decide
theorem test_decode_reserved_bits :
    decodeWord 0b00000000000000000000000000010011#32 = .badOpReservedBits 1#28 3#4 ∧
      decodeWord 0b10000000000000000000000000000001#32 = .badOpReservedBits 0x8000000#28 1#4 := by decide
theorem test_decode_bytes_lane_0_first :
    decode [0x06#8, 0x00#8, 0x00#8, 0x00#8] = .ok .encseq ∧
      decode [0x00#8, 0x00#8, 0x00#8, 0x06#8] = .ok (.badOpReservedBits 0x0600000#28 0#4) := by decide
theorem test_decode_not_one_word :
    decode [0x01#8] = .error .notOneWord ∧ decode [0#8, 0#8, 0#8, 0#8, 0#8] = .error .notOneWord := by decide
theorem test_decodeTableWord :
    decodeTableWord 32 5 = some .xlate ∧ decodeTableWord 32 0x13 = some (.badOpReservedBits 1#28 3#4) := by decide

/-! ### The buffers -/

theorem test_memory_canonical :
    Memory.store (Memory.store (Memory.store [] 5 1#8) 3 2#8) 5 7#8 = [(3, 2#8), (5, 7#8)] := by decide
/-- 95_test_vectors.md section 2.8: BYTE_BUF[0..3] = 61 62 63 64. -/
theorem test_byteBuf_lanes :
    (State.reset.hostWrite 0x10000#20 0x64636261#32).mem =
      [(0x10000, 0x61#8), (0x10001, 0x62#8), (0x10002, 0x63#8), (0x10003, 0x64#8)] := by decide
/-- Section 2.8: address bits [1:0] are ignored. -/
theorem test_byteBuf_low_bits :
    (State.reset.hostWrite 0x10000#20 0x64636261#32).hostRead 0x10002#20 = 0x64636261#32 := by decide
/-- Section 2.8: DIGIT_BUF stores 16 bits. -/
theorem test_digitBuf_16_bits :
    (State.reset.hostWrite 0x00100#20 0xFFFF1234#32).hostRead 0x00100#20 = 0x1234#32 := by decide

/-! ### One step of each command, values of 95_test_vectors.md section 2 -/

theorem test_nop : (ran State.reset 0).regs.statusWord = 0x2#32 := by decide
/-- Table 2.1, first row: 637, 52, 1285, then zeros. -/
theorem test_tobase :
    let t := ran (idle { Regs.reset with valLo := 0x64636261#32 } []) 1
    t.regs.ndig = 3#7 ∧ t.mem.byte? 0x100 = some 0x7D#8 ∧ t.mem.byte? 0x101 = some 0x02#8 ∧
      t.mem.byte? 0x104 = some 52#8 ∧ t.mem.byte? 0x10C = some 0#8 ∧ t.mem.byte? 0x1FD = some 0#8 := by decide +kernel
theorem test_tobase_base_range :
    (ran (idle { Regs.reset with base := 1#16, valLo := 5#32 } []) 1).regs.statusWord = 0x21A#32 := by decide
/-- Table 2.2: 2^64 - 1 from six digits. -/
theorem test_frombase :
    let t := ran (idle { Regs.reset with ndig := 6#7 } (digitMem [1622, 1616, 1403, 1001, 771, 1077])) 2
    t.regs.valHi = 0xFFFFFFFF#32 ∧ t.regs.valLo = 0xFFFFFFFF#32 := by decide
/-- Table 2.2: the lowest bad position is reported. -/
theorem test_frombase_digit_range :
    let t := ran (idle { Regs.reset with ndig := 3#7 } (digitMem [5, 1626, 1627])) 2
    t.regs.statusWord = 0x31A#32 ∧ t.regs.errPosWord = 1#32 := by decide
/-- Table 2.3, L1.3: a 3-byte block, its last word in bank B. -/
theorem test_encblk :
    let t := ran (idle { Regs.reset with blkIn := 0xDE636261#32, blkLen := 3#3 } []) 3
    t.regs.idxOut0 = 0x80020002#32 ∧ t.regs.idxOut1 = 0x82F102F1#32 ∧ t.regs.idxOut2 = 0x8C5F0AB9#32 := by
  decide
theorem test_encblk_block_len :
    (ran (idle { Regs.reset with blkIn := 5#32, blkLen := 5#3 } []) 3).regs.statusWord = 0x61A#32 := by decide
/-- Table 2.4: the inverse of L1.4. -/
theorem test_decblk :
    let t := ran (idle { Regs.reset with
      idxIn0 := ⟨637#12, true⟩, idxIn1 := ⟨52#12, true⟩, idxIn2 := ⟨1285#12, true⟩, idxInCnt := 3#2 } []) 4
    t.regs.blkOut = 0x64636261#32 ∧ t.regs.blkOutLen = 4#3 := by decide
/-- Table 2.4: recognition comes before the bank-B position. -/
theorem test_decblk_unrecognized :
    let t := ran (idle { Regs.reset with idxIn0 := ⟨1626#12, true⟩, idxIn1 := ⟨5#12, false⟩, idxInCnt := 2#2 } []) 4
    t.regs.statusWord = 0xA2A#32 ∧ t.regs.errPosWord = 0x10000#32 := by decide
/-- Table 2.5, a bank-B index, RECOG ignored. -/
theorem test_xlate :
    (ran (idle { Regs.reset with idxIn0 := ⟨2745#12, false⟩ } []) 5).regs.idxOut0 = 0x8C5F0AB9#32 := by decide
theorem test_xlate_index_range :
    (ran (idle { Regs.reset with idxIn0 := ⟨3252#12, true⟩ } []) 5).regs.statusWord = 0x81A#32 := by decide
/-- Table 2.6, L1.9: five bytes in two groups. -/
theorem test_encseq :
    let t := ran (idle { Regs.reset with seqLen := 5#16 } (byteMem [0x61#8, 0x62#8, 0x63#8, 0x64#8, 0x65#8])) 6
    t.regs.grpCnt = 2#16 ∧ t.mem.cell32 0 0x40000 = 3#32 ∧ t.mem.cell32 0 0x4000C = 0x85050505#32 ∧
      t.mem.cell32 0 0x40010 = 1#32 ∧ t.mem.cell32 0 0x40014 = 0x80650065#32 ∧ t.mem.cell32 0 0x4001C = 0#32 := by
  decide
theorem test_encseq_seq_range :
    (ran (idle { Regs.reset with seqLen := 1025#16 } []) 6).regs.statusWord = 0x91A#32 := by decide
/-- Table 2.6, the inverse of L1.9. -/
theorem test_decseq :
    let t := ran (idle { Regs.reset with grpCnt := 2#16 }
      (groupMem [3#32, 0x8000027D#32, 0x80000034#32, 0x80000505#32, 1#32, 0x80000065#32, 0#32, 0#32])) 7
    t.regs.seqLen = 5#16 ∧ t.mem.byte? 0x10000 = some 0x61#8 ∧ t.mem.byte? 0x10004 = some 0x65#8 ∧
      t.mem.byte? 0x10005 = none := by decide
/-- Table 2.6: the group in POS, the slot in SLOT. -/
theorem test_decseq_error_position :
    let t := ran (idle { Regs.reset with grpCnt := 2#16 }
      (groupMem [3#32, 0x8000027D#32, 0x80000034#32, 0x80000505#32, 2#32, 0x80000000#32, 0x800006A4#32, 0#32])) 7
    t.regs.statusWord = 0xB3A#32 ∧ t.regs.errPosWord = 0x10001#32 := by decide
/-- Table 2.7. -/
theorem test_badop_reserved_opcode :
    (ran State.reset 8).regs.statusWord = 0x11A#32 ∧ (ran State.reset 8).regs.cmd = 8#32 := by decide
theorem test_badop_reserved_bits :
    (ran State.reset 0x13).regs.statusWord = 0x11A#32 ∧ (ran State.reset 0x13).regs.cmd = 0x13#32 := by decide

/-! ### The host port, values of sections 2.7 and 2.8 -/

theorem test_reset_reads :
    State.reset.hostRead 0x00000#20 = 0x065A2430#32 ∧ State.reset.hostRead 0x00004#20 = 0x01004040#32 ∧
      State.reset.hostRead 0x00050#20 = 0x65A#32 ∧ State.reset.hostRead 0x00010#20 = 0#32 := by decide
theorem test_reserved_reads_0 :
    State.reset.hostRead 0x00018#20 = 0#32 ∧ State.reset.hostRead 0x00200#20 = 0#32 ∧
      State.reset.hostRead 0x10400#20 = 0#32 ∧ State.reset.hostRead 0x41000#20 = 0#32 := by decide
theorem test_idxInCnt_stores_2_bits :
    (State.reset.hostWrite 0x0003C#20 0xFFFFFFFF#32).hostRead 0x0003C#20 = 3#32 := by decide
/-- Program P1: IDX_IN stores only IDX and RECOG. -/
theorem test_idxIn_stores_idx_and_recog :
    (State.reset.hostWrite 0x00030#20 0x827D027D#32).hostRead 0x00030#20 = 0x8000027D#32 := by decide
theorem test_busy_write_dropped :
    ((busy 1).hostWrite 0x00020#20 5#32).regs.blkIn = 0#32 ∧
      ((busy 1).hostWrite 0x00020#20 5#32).regs.statusWord = 0x5#32 := by decide
theorem test_ack :
    ((ran State.reset 8).hostWrite 0x00010#20 0x2#32).regs.statusWord = 0x118#32 ∧
      ((ran State.reset 8).hostWrite 0x00010#20 0x8#32).regs.statusWord = 0x11A#32 := by decide
/-- Section 2.7: a soft reset of a busy block. -/
theorem test_soft_reset_while_busy :
    ((busy 3).hostWrite 0x00008#20 0x3#32).regs = Regs.reset ∧
      ((busy 3).hostWrite 0x00008#20 0x3#32).pending = none := by decide
theorem test_script_wait_reads_status_again :
    step { State.reset with regs := (busy 1).regs, pending := (busy 1).pending.map (fun p => { p with delay := 1 }),
                            script := [.wait] } =
      .next { State.reset with regs := (busy 1).regs, pending := (busy 1).pending, script := [.wait], r := 1#32,
                               draws := 1 } := by rfl

/-! ### Hypotheses that something meets: encoding and the step -/

theorem test_wit_DecodeOfEncode :
    (Instr.badOpReservedOpcode 8#4).wellFormed = true ∧ (Instr.badOpReservedBits 0xFFFFFFF#28 15#4).wellFormed = true := by
  decide
theorem test_wit_DecodeFollowsOpcodeMap :
    (0#32).toNat = 0 ∧ (1#32).toNat = 1 ∧ (2#32).toNat = 2 ∧ (3#32).toNat = 3 ∧ (4#32).toNat = 4 ∧ (5#32).toNat = 5 ∧
      (6#32).toNat = 6 ∧ (7#32).toNat = 7 ∧ (8 ≤ (8#32).toNat % 16 ∧ (8#32).toNat / 16 = 0) ∧
      (8 ≤ (15#32).toNat % 16 ∧ (15#32).toNat / 16 = 0) ∧ (16#32).toNat / 16 ≠ 0 := by decide
/-- The engine's turn, and the host's turn of a command with one transaction still to come. -/
theorem test_wit_StepRunsDecodedCommand :
    (∃ p, (busy 1).pending = some p ∧ decode (bytesOfWord p.word) = .ok .tobase ∧ p.delay = 0) ∧
      ∃ p, { State.reset.accept 1#32 1 with script := [.rd 0#20] }.pending = some p ∧
        decode (bytesOfWord p.word) = .ok .tobase ∧ p.delay ≠ 0 :=
  ⟨⟨_, rfl, by decide, rfl⟩, ⟨_, rfl, by decide, by decide⟩⟩
/-- The host's turn when `wait` is next, busy and (in a state no run reaches) not busy. -/
theorem test_wit_StepRunsDecodedCommand_wait :
    (State.reset.accept 1#32 1).rst = false ∧ (State.reset.accept 1#32 1).regs.busy = true ∧
      ∃ p, { State.reset.accept 1#32 1 with regs := Regs.reset, script := [.wait] }.pending = some p ∧ p.delay ≠ 0 ∧
        Regs.reset.busy = false :=
  ⟨rfl, rfl, _, rfl, by decide, rfl⟩
theorem test_wit_IdleStepServesHost :
    State.reset.pending = none ∧ State.reset.script = [] ∧ State.reset.rst = false ∧ State.reset.regs.busy = false ∧
      HostAction.rd 0#20 ≠ .wait := by decide
theorem test_wit_FetchedWordRunsNext :
    (busy 3).pending.isSome = true ∧ (busy 3).operands.regs.cmd = 3#32 ∧ (busy 3).operands.regs.base = 0x65A#16 := by
  decide

/-- A command that one host read comes before; IE is set after it, which resets nothing. -/
def pendingOne : State := { State.reset.accept 1#32 1 with script := [.rd 0x00010#20, .wr 0x00008#20 1#32] }

theorem test_pendingOne_ok : pendingOne.PendingOk :=
  ⟨rfl, fun _ h => by cases h; exact ⟨rfl, rfl, rfl⟩, fun _ => ⟨rfl, rfl, rfl, rfl, rfl, rfl⟩, fun h => by cases h⟩
theorem test_wit_CommandCompletesWithinLatency :
    pendingOne.PendingOk ∧ (∃ p, pendingOne.pending = some p ∧ p.delay = 1) ∧
      ∀ a ∈ pendingOne.script, mayReset a = false :=
  ⟨test_pendingOne_ok, ⟨_, rfl, rfl⟩, fun a h => by
    simp only [pendingOne, List.mem_cons, List.not_mem_nil, or_false] at h
    rcases h with rfl | rfl <;> rfl⟩
theorem test_mayReset :
    mayReset (.wr 0x00008#20 1#32) = false ∧ mayReset (.wr 0x0000B#20 2#32) = true ∧ mayReset (.wr 0x0000C#20 2#32) = false := by
  decide

/-! ### Invariants -/

/-- One written byte of BYTE_BUF, and a host write to come. -/
def oneByte : State := { State.reset with mem := [(0x10000, 0x61#8)], script := [.wr 0x10000#20 5#32] }

theorem test_wit_BuffersKeptByStep : oneByte.BuffersOk ∧ ∃ t, step oneByte = .next t := by
  refine ⟨⟨List.pairwise_singleton _ _, fun x h => by rw [List.mem_singleton.1 h]; decide, ?_, ?_⟩, ⟨_, rfl⟩⟩
  · intro j hj i hi
    simp only [Config.maxDigits] at hj
    simp only [oneByte, Memory.byte?, digitAddr]
    rw [if_neg (by omega), if_neg (by omega)]
  · intro k hk i hi j hj
    simp only [oneByte, Memory.byte?, groupAddr]
    rw [if_neg (by omega), if_neg (by omega)]
theorem test_wit_PendingKeptByStep : pendingOne.PendingOk ∧ ∃ t, step pendingOne = .next t :=
  ⟨test_pendingOne_ok, ⟨_, rfl⟩⟩
theorem test_wit_ErrorRecordKeptByStep : (busy 8).ErrorRecordOk ∧ ∃ t, step (busy 8) = .next t :=
  ⟨⟨rfl, rfl, fun _ => ⟨rfl, rfl⟩⟩, ⟨_, rfl⟩⟩
theorem test_wit_ResultsKeptByStep : (busy 5).ResultsOk ∧ ∃ t, step (busy 5) = .next t :=
  ⟨⟨⟨[], rfl, fun _ h => (by cases h), rfl, rfl, rfl⟩,
    ⟨by decide, fun i _ _ => by show lane 0#32 i = 0#8; simp [lane]⟩⟩, ⟨_, rfl⟩⟩

/-! ### Converters and codec -/

theorem test_wit_ToBaseDigits : 2 ≤ 2 ∧ 0 < 1 ∧ 1 < 2 ^ 1 := by decide
theorem test_wit_ConvertersNearInverse : 2 ≤ 2 ∧ ∀ d ∈ [0, 1], d < 2 := by decide
theorem test_wit_TobaseResult :
    (idle { Regs.reset with base := 1#16 } []).operands.regs.base.toNat < 2 ∧
      2 ≤ (idle { Regs.reset with base := 2#16 } []).operands.regs.base.toNat := by decide

/-- The digits FROMBASE reads. -/
def digitsOf (s : State) : List Nat :=
  (List.range s.operands.regs.ndig.toNat).map (fun j => (s.operands.mem.cell16 s.draws (0x100 + 4 * j)).toNat)

theorem test_wit_FrombaseResult_errors :
    (idle { Regs.reset with base := 1#16 } []).operands.regs.base.toNat < 2 ∧
      64 < (idle { Regs.reset with ndig := 65#7 } []).operands.regs.ndig.toNat ∧
      digitsOf (idle { Regs.reset with ndig := 1#7 } (digitMem [1626])) = [1626] ∧
      digitsOf (idle { Regs.reset with ndig := 2#7 } (digitMem [1625, 1626])) = [1625, 1626] := by decide
/-- Table 2.2: 2^64 overflows, 2^64 - 1 does not. -/
theorem test_wit_FrombaseResult_values :
    (let ds := digitsOf (idle { Regs.reset with ndig := 6#7 } (digitMem [1622, 1616, 1403, 1001, 771, 1078]))
     (∀ d ∈ ds, d < 1626) ∧ 2 ^ 64 ≤ fromBase 1626 ds) ∧
    (let ds := digitsOf (idle { Regs.reset with ndig := 6#7 } (digitMem [1622, 1616, 1403, 1001, 771, 1077]))
     (∀ d ∈ ds, d < 1626) ∧ fromBase 1626 ds < 2 ^ 64) := by decide

/-- For PaddingNeverTruncates, EncodeBlockDigits, EncodeBlockProperties and BlockRoundTrip: the lengths at the ends. -/
theorem test_wit_block_lengths :
    ([] : List Byte).length = 0 ∧ 4 < [0#8, 0#8, 0#8, 0#8, 0#8].length ∧
      (1 ≤ [0xFF#8].length ∧ [0xFF#8].length ≤ 4) ∧ (1 ≤ [0#8, 0#8, 0#8, 0#8].length ∧ [0#8, 0#8, 0#8, 0#8].length ≤ 4) := by
  decide
theorem test_wit_DecodeBlockExactImage :
    ([(255, true), (0, false), (0, false)] : List CodecSlot).length = 3 ∧
      (∀ x ∈ ([(255, true), (0, false), (0, false)] : List CodecSlot).take 1, x.2 = true) ∧
      decodeBlock 1 [(255, true), (0, false), (0, false)] = .ok [0xFF#8] ∧ encodeBlock [0xFF#8] = .ok [255] ∧
      decodeBlock 3 [(6, true), (562, true), (1773, true)] = .ok [0xFF#8, 0xFF#8, 0xFF#8] := by decide

/-- Each outcome of `decodeBlock` at the edge of its range (table 2.4). -/
theorem test_wit_DecodeBlockOutcomes :
    decodeBlock 0 [(0, true), (0, true), (0, true)] = .error ⟨.groupLen, 0#16, 0#2⟩ ∧
      decodeBlock 4 [(0, true), (0, true), (0, true)] = .error ⟨.groupLen, 0#16, 0#2⟩ ∧
      decodeBlock 3 [(1626, true), (5, true), (7, false)] = .error ⟨.unrecognized, 0#16, 2#2⟩ ∧
      decodeBlock 2 [(0, true), (3251, true), (0, false)] = .error ⟨.bankBPosition, 0#16, 1#2⟩ ∧
      decodeBlock 3 [(0, true), (0, true), (3252, true)] = .error ⟨.digitRange, 0#16, 2#2⟩ ∧
      decodeBlock 1 [(256, true), (0, false), (0, false)] = .error ⟨.valueOverflow, 0#16, 0#2⟩ ∧
      decodeBlock 3 [(6, true), (562, true), (1774, true)] = .error ⟨.valueOverflow, 0#16, 0#2⟩ ∧
      decodeBlock 3 [(1624, true), (807, true), (489, true)] = .ok [0xFF#8, 0xFF#8, 0xFF#8, 0xFF#8] := by decide
theorem test_wit_EncblkResult :
    (idle Regs.reset []).operands.regs.blkLen.toNat = 0 ∧
      4 < (idle { Regs.reset with blkLen := 5#3 } []).operands.regs.blkLen.toNat ∧
      (idle { Regs.reset with blkLen := 1#3 } []).operands.regs.blkLen.toNat = 1 ∧
      (idle { Regs.reset with blkLen := 4#3 } []).operands.regs.blkLen.toNat = 4 := by decide
theorem test_wit_DecblkResult :
    decodeBlock (idle Regs.reset []).operands.regs.idxInCnt.toNat (idle Regs.reset []).operands.regs.idxInSlots =
        .error ⟨.groupLen, 0#16, 0#2⟩ ∧
      (let s := idle { Regs.reset with idxIn0 := ⟨255#12, true⟩, idxInCnt := 1#2 } []
       decodeBlock s.operands.regs.idxInCnt.toNat s.operands.regs.idxInSlots = .ok [0xFF#8]) := by decide
theorem test_wit_BankAddressInverse :
    bankAddr 0 = 0 ∧ bankAddr 1625 = 0x659 ∧ bankAddr 1626 = 0x800 ∧ bankAddr 3251 = 0xE59 ∧
      (0xE59 < 2 ^ 12 ∧ 0xE59 % 2 ^ 11 < 1626) := by decide
theorem test_wit_XlateResult :
    (idle { Regs.reset with idxIn0 := ⟨3252#12, true⟩ } []).operands.regs.idxIn0.idx.toNat = 3252 ∧
      (idle { Regs.reset with idxIn0 := ⟨3251#12, true⟩ } []).operands.regs.idxIn0.idx.toNat = 3251 := by decide

/-! ### Sequences -/

theorem test_wit_PartitionBlocks :
    partition [0#8, 1#8, 2#8, 3#8, 4#8] = [[0#8, 1#8, 2#8, 3#8], [4#8]] ∧ 0 + 1 < (partition [0#8, 1#8, 2#8, 3#8, 4#8]).length := by
  decide
theorem test_wit_EncseqResult :
    State.reset.params.bufBytes < (idle { Regs.reset with seqLen := 1025#16 } []).operands.regs.seqLen.toNat ∧
      (idle { Regs.reset with seqLen := 1024#16 } []).operands.regs.seqLen.toNat ≤ State.reset.params.bufBytes ∧
      (idle Regs.reset []).operands.regs.seqLen.toNat = 0 := by decide

/-- Two groups, the second with a bank-B word out of place (table 2.6). -/
def badGroups : State :=
  idle { Regs.reset with grpCnt := 2#16 }
    (groupMem [1#32, 0x80000061#32, 0#32, 0#32, 2#32, 0x80000000#32, 0x800006A4#32, 0#32])

/-- One group, recognised. -/
def goodGroup : State := idle { Regs.reset with grpCnt := 1#16 } (groupMem [1#32, 0x80000061#32, 0#32, 0#32])

/-- Group `k` decoded as the statement of DECSEQ reads it. -/
def groupOf (s : State) (k : Nat) : Except CmdError (List Byte) :=
  let word := fun i => s.operands.mem.cell32 s.draws (0x40000 + 16 * k + 4 * i)
  let slot := fun j => ((word (j + 1)).toNat % 2 ^ 12, (word (j + 1)).getLsbD 31)
  decodeBlock ((word 0).toNat % 4) [slot 0, slot 1, slot 2]

theorem test_wit_DecseqResult :
    State.reset.params.groupEntries < (idle { Regs.reset with grpCnt := 257#16 } []).operands.regs.grpCnt.toNat ∧
      (goodGroup.operands.regs.grpCnt.toNat ≤ goodGroup.params.groupEntries ∧ groupOf goodGroup 0 = .ok [0x61#8]) ∧
      (groupOf badGroups 0 = .ok [0x61#8] ∧ groupOf badGroups 1 = .error ⟨.bankBPosition, 0#16, 1#2⟩) := by decide
theorem test_wit_DecseqErrorLeaves :
    (ran (idle { Regs.reset with grpCnt := 257#16 } []) 7).regs.detail = .seqRange ∧
      (ran badGroups 7).regs.err = true ∧ (ran badGroups 7).regs.detail = .bankBPosition := by decide
theorem test_wit_SequenceRoundTrip :
    let s := idle { Regs.reset with seqLen := 1#16 } (byteMem [0x61#8])
    s.regs.seqLen.toNat ≤ s.params.bufBytes ∧ (∀ a, a < 1 → (s.mem.byte? (0x10000 + a)).isSome = true) ∧
      ∃ t u, exec .encseq (s.accept 6#32 0) = .next t ∧ exec .decseq (t.accept 7#32 3) = .next u :=
  ⟨by decide, by decide, _, _, rfl, rfl⟩

/-! ### Completion and errors -/

theorem test_wit_NopResult : State.reset.regs.ovr = false := by decide
theorem test_wit_BadOpResult : 8 ≤ (8#32).toNat ∧ 8 ≤ (0xFFFFFFFF#32).toNat := by decide
theorem test_wit_ErrorWritesNoResult :
    (ran State.reset 8).regs.err = true ∧ (ran badGroups 7).regs.err = true := by decide
/-- For AcceptanceEffect, and its first two for ErrorCodes, IdAndParamFields and StatusAndCtrlWrites. -/
theorem test_wit_AcceptanceEffect :
    State.reset.rst = false ∧ State.reset.regs.ovr = false ∧ State.reset.regs.busy = false ∧ (busy 1).rst = false ∧
      (busy 1).regs.busy = true := by decide

/-! ### The host port -/

theorem test_wit_LowAddressBitsIgnored : (0x10001#20).toNat / 4 = (0x10003#20).toNat / 4 := by decide
/-- For ReadsHaveNoSideEffect: a check that holds, and one that does not. -/
theorem test_wit_ReadsHaveNoSideEffect :
    State.reset.hostRead 0x00000#20 = 0x065A2430#32 ∧ State.reset.hostRead 0x00000#20 ≠ 0#32 := by decide
/-- For NamesReachTheirTargets, DigitBufStores, ByteBufStores and GroupBufStores: the last cell of each buffer. -/
theorem test_wit_names_and_buffers :
    63 < 64 ∧ 4 * 255 < Config.Params.reference.bufBytes ∧ 255 < Config.Params.reference.groupEntries ∧
      target Config.Params.reference 0x001FC#20 = .digit 63 ∧ target Config.Params.reference 0x103FC#20 = .bytes 255 ∧
      target Config.Params.reference 0x40FFC#20 = .group 255 3 := by decide
theorem test_wit_WrittenCellsRead :
    let m := byteMem [1#8, 2#8, 3#8, 4#8]
    m.byte? 0x10000 = some 1#8 ∧ m.byte? 0x10001 = some 2#8 ∧ m.byte? 0x10002 = some 3#8 ∧ m.byte? 0x10003 = some 4#8 := by
  decide
/-- Each unpopulated range at its ends (R43). -/
theorem test_wit_ReservedAddressesInert :
    [0x018#20, 0x01C#20, 0x068#20, 0x0FC#20, 0x200#20, 0x0FFFC#20, 0x10400#20, 0x3FFFC#20, 0x41000#20, 0xFFFFC#20].map
        (target Config.Params.reference) = List.replicate 10 .reserved := by decide
theorem test_wit_RegisterReadBack :
    State.reset.rst = false ∧ State.reset.regs.busy = false ∧
      (State.reset.hostWrite 0x00030#20 0xFFFFFFFF#32).readReg .idxIn0 = 0x80000FFF#32 ∧
      (0xFFFFFFFD#32).getLsbD 1 = false := by decide
/-- The read-only result registers at their offsets (R28, R29, R32, R33), and ERR_POS (R25). -/
theorem test_result_registers_read :
    let s := idle { Regs.reset with
      blkOut := 1#32, blkOutLen := 2#3, idxOut0 := 3#32, idxOut1 := 4#32, idxOut2 := 5#32, idxOutCnt := 3#2,
      errPos := 6#16, errSlot := 1#2 } []
    s.hostRead 0x00028#20 = 1#32 ∧ s.hostRead 0x0002C#20 = 2#32 ∧ s.hostRead 0x00040#20 = 3#32 ∧
      s.hostRead 0x00044#20 = 4#32 ∧ s.hostRead 0x00048#20 = 5#32 ∧ s.hostRead 0x0004C#20 = 3#32 ∧
      s.hostRead 0x00014#20 = 0x10006#32 := by decide
theorem test_wit_ReadOnlyRegistersIgnoreWrites :
    State.reset.hostWrite 0x00000#20 5#32 = State.reset ∧ State.reset.hostWrite 0x0004C#20 5#32 = State.reset := by decide
/-- For BusyWritesDropped, and the values of bit 1 for StatusAndCtrlWrites. -/
theorem test_wit_BusyWritesDropped :
    (busy 1).rst = false ∧ (busy 1).regs.busy = true ∧ wordAddr 0x00023#20 = 0x020 ∧ wordAddr 0x0000B#20 = 0x008 ∧
      wordAddr 0x00013#20 = 0x010 ∧ (1#32).getLsbD 1 = false ∧ (2#32).getLsbD 1 = true := by decide
theorem test_wit_BusyReads :
    (busy 1).rst = false ∧ (busy 1).regs.busy = true ∧ wordAddr 0x00003#20 = 0x000 ∧ wordAddr 0x00004#20 = 0x004 ∧
      wordAddr 0x00008#20 = 0x008 ∧ wordAddr 0x0000C#20 = 0x00C ∧ wordAddr 0x00010#20 = 0x010 ∧
      0x010 < wordAddr 0x00014#20 := by decide
theorem test_wit_IrqRisesAndFalls :
    State.reset.rst = false ∧ State.reset.regs.busy = false ∧ (2#32).getLsbD 1 = true ∧ (ran State.reset 0).regs.done = true := by
  decide

/-! ### Reset -/

theorem test_wit_HardwareReset :
    State.reset.pending = none ∧ (State.reset.setRst true).rst = true ∧ (busy 3).pending.isSome = true := by decide
theorem test_wit_SoftReset : State.reset.rst = false ∧ wordAddr 0x0000A#20 = 0x008 ∧ (3#32).getLsbD 1 = true := by decide

/-- The reset state with the command `w` pending over `g`. -/
def busyWith (g : Regs) (w : Nat) : State := (idle g []).withFetchWord 32 w

/-- The pending command, and the operand that says which cells it may write. -/
def pendingCommand (s : State) : Option (Instr × Nat × Nat) :=
  s.pending.map (fun p => (decodeWord p.word, p.snapshot.regs.seqLen.toNat, p.snapshot.regs.grpCnt.toNat))

/-- Each clause at the end of its range: BUF_BYTES is 1024 and GROUP_ENTRIES 256. -/
theorem test_wit_AbandonedCommandCells :
    pendingCommand (busyWith Regs.reset 1) = some (.tobase, 0, 0) ∧
      pendingCommand (busyWith { Regs.reset with seqLen := 1024#16 } 6) = some (.encseq, 1024, 0) ∧
      pendingCommand (busyWith { Regs.reset with seqLen := 1025#16 } 6) = some (.encseq, 1025, 0) ∧
      pendingCommand (busyWith { Regs.reset with grpCnt := 256#16 } 7) = some (.decseq, 0, 256) ∧
      pendingCommand (busyWith { Regs.reset with grpCnt := 257#16 } 7) = some (.decseq, 0, 257) ∧
      pendingCommand (busyWith Regs.reset 3) = some (.encblk, 0, 0) := by decide

end Sys2Proof.Tests
end

/-! ## What every step keeps -/

namespace Sys2Proof.Machine

/-! ### What every step keeps: the one induction -/

/-- A property of states is kept by every step when it is kept by the fields of the host alone, by the wait of a pending
command growing shorter, by a host write, by an edge of `rst` and by the completion of a command. -/
theorem step_keeps {P : State → Prop}
    (host : ∀ (s : State) script r checksFailed draws, P s →
      P { s with script := script, r := r, checksFailed := checksFailed, draws := draws })
    (tick : ∀ s : State, P s → P s.tick)
    (write : ∀ (s : State) a d, P s → P (s.hostWrite a d))
    (reset : ∀ (s : State) level, P s → P (s.setRst level))
    (engine : ∀ (s t : State) p, s.pending = some p → exec (decodeWord p.word) s = .next t → P s → P t)
    {s t : State} (hs : P s) (h : step s = .next t) : P t := by
  rcases step_cases h with ⟨p, hp, _, he⟩ | ⟨_, rfl⟩
  · exact engine s t p hp he hs
  rcases hostTurn_cases s with ⟨_, e⟩ | ⟨a, rest, _, left, _, e⟩ <;> rw [e]
  · exact hs
  rcases perform_cases s.tick a with ⟨x, n, e⟩ | ⟨x, v, _, e⟩ | ⟨l, _, e⟩ <;> rw [e]
  · exact host s.tick _ _ _ _ (tick s hs)
  · exact host _ left _ _ _ (write _ x v (tick s hs))
  · exact host _ left _ _ _ (reset _ l (tick s hs))

/-! ### BUF_BYTES never changes (R7) -/

theorem hostWrite_params (s : State) (a : HostAddr) (d : Word) : (s.hostWrite a d).params = s.params := by
  rcases hostWrite_cases s a d with e | ⟨_, e | e | e | ⟨_, e⟩ | ⟨_, e | ⟨_, e⟩ | ⟨_, _, e⟩ | ⟨_, _, e⟩ |
    ⟨_, _, _, _, e⟩⟩⟩ <;> rw [e] <;> rfl

theorem exec_params {i : Instr} {s t : State} (h : exec i s = .next t) : t.params = s.params := by
  rcases exec_cases h with ⟨_, _, _, _, _, rfl, _⟩ | ⟨_, _, rfl, _⟩ <;> rfl

end Sys2Proof.Machine

/-! ## Every step writes whole cells of the buffers
One relation says what can happen to the buffers, `Memory.CellWrites`: a run of writes, each of whole cells that exist.
Every operation of the model is shown to be such a run, and `State.BuffersOk` is kept by all of them. -/

namespace Sys2Proof.Machine

/-! ### Runs of whole cells -/

/-- The `n` bytes from `a` on are whole cells that exist: one cell of DIGIT_BUF, bytes of BYTE_BUF, or words of
GROUP_BUF (R43 to R46). -/
inductive CellRun (p : Config.Params) : Nat → Nat → Prop
  | digit {j : Nat} (hj : j < Config.maxDigits) : CellRun p (digitAddr j) 2
  | bytes {a n : Nat} (lo : 0x10000 ≤ a) (hi : a + n ≤ 0x10000 + p.bufBytes) : CellRun p a n
  | words {a n : Nat} (lo : 0x40000 ≤ a) (hi : a + n ≤ 0x40000 + 4 * p.bufBytes) (ha : a % 4 = 0) (hn : n % 4 = 0) :
      CellRun p a n

/-- Every byte of the run is a byte of a cell that exists. -/
theorem CellRun.isCellByte {p : Config.Params} {a n b : Nat} (h : CellRun p a n) (lo : a ≤ b) (hi : b < a + n) :
    isCellByte p b = true := by
  simp only [Machine.isCellByte, Bool.or_eq_true, Bool.and_eq_true, decide_eq_true_eq]
  cases h with
  | digit hj => simp only [digitAddr, Config.maxDigits] at *; omega
  | bytes _ _ => omega
  | words _ _ _ _ => omega

/-- The run holds both bytes of a DIGIT_BUF cell or neither. -/
theorem CellRun.digit_iff {p : Config.Params} {a n j i : Nat} (h : CellRun p a n) (hj : j < Config.maxDigits)
    (hi : i < 2) :
    (a ≤ digitAddr j + i ∧ digitAddr j + i < a + n) ↔ (a ≤ digitAddr j ∧ digitAddr j < a + n) := by
  simp only [digitAddr, Config.maxDigits] at *
  cases h with
  | digit _ => simp only [digitAddr]; omega
  | bytes _ _ => omega
  | words _ _ _ _ => omega

/-- The run holds all bytes of a GROUP_BUF word or none. -/
theorem CellRun.group_iff {p : Config.Params} {a n k w i : Nat} (h : CellRun p a n) (hi : i < 4) :
    (a ≤ groupAddr k w + i ∧ groupAddr k w + i < a + n) ↔ (a ≤ groupAddr k w ∧ groupAddr k w < a + n) := by
  have hp := params_bounds p
  simp only [groupAddr] at *
  cases h with
  | digit hj => simp only [digitAddr, Config.maxDigits] at *; omega
  | bytes _ _ => omega
  | words _ _ _ _ => omega

/-! ### One write keeps the buffers as they should be -/

theorem Memory.mem_storeList {bs : List Byte} {m : Memory} {a : Nat} {x : Host.Cell} (h : x ∈ m.storeList a bs) :
    (a ≤ x.1 ∧ x.1 < a + bs.length) ∨ x ∈ m := by
  induction bs generalizing m a with
  | nil => exact .inr h
  | cons b bs ih =>
    rw [List.length_cons]
    rcases ih h with hx | hx
    · exact .inl (by omega)
    · rcases Memory.mem_store hx with rfl | hx
      · exact .inl (by simp)
      · exact .inr hx

/-- The written bytes after a run is written: those of the run, and those written before. -/
theorem Memory.isSome_byte?_storeList (bs : List Byte) (m : Memory) (a b : Nat) :
    ((m.storeList a bs).byte? b).isSome = (decide (a ≤ b ∧ b < a + bs.length) || (m.byte? b).isSome) := by
  rw [Memory.byte?_storeList]
  by_cases h : a ≤ b ∧ b < a + bs.length
  · rw [if_pos h, List.getElem?_eq_getElem (by omega)]; simp [h]
  · rw [if_neg h]; simp [h]

/-- A cell stays whole when the run holds all of its bytes or none. -/
theorem Memory.wholeCell_storeList {m : Memory} {width c a : Nat} {bs : List Byte} (h : m.wholeCell width c)
    (hrun : ∀ i < width, (a ≤ c + i ∧ c + i < a + bs.length) ↔ (a ≤ c ∧ c < a + bs.length)) :
    (m.storeList a bs).wholeCell width c := by
  intro i hi
  rw [isSome_byte?_storeList, isSome_byte?_storeList, h i hi, decide_eq_decide.2 (hrun i hi)]

theorem State.BuffersOk.storeList {s : State} (h : s.BuffersOk) {a : Nat} {bs : List Byte}
    (hrun : CellRun s.params a bs.length) : ({ s with mem := s.mem.storeList a bs } : State).BuffersOk := by
  obtain ⟨wf, populated, digits, groups⟩ := h
  refine ⟨Memory.wf_storeList bs wf a, fun x hx => ?_, fun j hj => ?_, fun k hk i hi => ?_⟩
  · rcases Memory.mem_storeList hx with ⟨lo, hi⟩ | hx
    · exact hrun.isCellByte lo hi
    · exact populated x hx
  · exact Memory.wholeCell_storeList (digits j hj) fun i hi => hrun.digit_iff hj hi
  · exact Memory.wholeCell_storeList (groups k hk i hi) fun i hi => hrun.group_iff hi

/-! ### Runs of writes -/

/-- `m'` is `m` after some writes, each of a run of whole cells. -/
inductive Memory.CellWrites (p : Config.Params) (m : Memory) : Memory → Prop
  | refl : CellWrites p m m
  | storeList {m' : Memory} {a : Nat} {bs : List Byte} (h : CellWrites p m m') (hrun : CellRun p a bs.length) :
      CellWrites p m (m'.storeList a bs)

theorem State.BuffersOk.cellWrites {s : State} (h : s.BuffersOk) {m : Memory} (hm : s.mem.CellWrites s.params m) :
    ({ s with mem := m } : State).BuffersOk := by
  induction hm with
  | refl => exact h
  | storeList _ hrun ih => exact ih.storeList hrun

section
variable {p : Config.Params} {m m' : Memory}

theorem Memory.CellWrites.store16 (h : m.CellWrites p m') {j : Nat} (hj : j < Config.maxDigits) (v : BitVec 16) :
    m.CellWrites p (m'.store16 (digitAddr j) v) := h.storeList (.digit hj)

theorem Memory.CellWrites.storeDigits {ds : List (BitVec 16)} {j : Nat} (h : m.CellWrites p m')
    (hj : j + ds.length ≤ Config.maxDigits) : m.CellWrites p (m'.storeDigits j ds) := by
  induction ds generalizing m' j with
  | nil => exact h
  | cons d ds ih =>
    rw [List.length_cons] at hj
    exact ih (h.store16 (by omega) d) (by omega)

/-- A cell that becomes UNSPEC keeps its content or is written whole. -/
theorem Memory.CellWrites.disturb (h : m.CellWrites p m') {draw width a : Nat} (hw : width ≤ 4)
    (hrun : CellRun p a width) : m.CellWrites p (m'.disturb draw width a) := by
  unfold Memory.disturb
  split
  · exact h
  · refine h.storeList ?_
    rwa [List.length_take, bytesOfWord, show min width (List.length [_, _, _, _]) = width from min_eq_left hw]

theorem Memory.CellWrites.disturbCells {draw width stride n a : Nat} (h : m.CellWrites p m') (hw : width ≤ 4)
    (hrun : ∀ c < n, CellRun p (a + stride * c) width) :
    m.CellWrites p (m'.disturbCells draw width stride a n) := by
  induction n generalizing m' a with
  | zero => exact h
  | succ n ih =>
    refine ih (h.disturb hw (by simpa using hrun 0 (by omega))) fun c hc => ?_
    have := hrun (c + 1) (by omega)
    rwa [show a + stride + stride * c = a + stride * (c + 1) by ring]

end

/-! ### Every step is a run of writes -/

/-- The first `n` bytes of BYTE_BUF become UNSPEC (R100, R126). -/
theorem cellWrites_disturb_byteBuf {p : Config.Params} (m : Memory) (draw : Nat) {n : Nat} (hn : n ≤ p.bufBytes) :
    m.CellWrites p (m.disturbCells draw 1 1 (byteAddr 0) n) :=
  Memory.CellWrites.refl.disturbCells (by omega) fun c hc => .bytes (by simp only [byteAddr]; omega)
    (by simp only [byteAddr]; omega)

/-- A reset writes whole cells of the command it abandons, and nothing else (R126). -/
theorem abandonedMem_cellWrites (p : Config.Params) (draw : Nat) (i : Instr) (o : Snapshot) (m : Memory) :
    m.CellWrites p (abandonedMem p draw i o m) := by
  have hp := params_bounds p
  cases i with
  | tobase =>
    refine Memory.CellWrites.refl.disturbCells (by omega) fun c hc => ?_
    rw [show digitAddr 0 + 4 * c = digitAddr c by simp only [digitAddr]]
    exact .digit hc
  | encseq =>
    simp only [abandonedMem]
    split
    · refine Memory.CellWrites.refl.disturbCells (by omega) fun c hc => ?_
      exact .words (by simp only [groupAddr]; omega) (by simp only [groupAddr]; omega)
        (by simp only [groupAddr]; omega) (by omega)
    · exact .refl
  | decseq =>
    simp only [abandonedMem]
    split
    · exact cellWrites_disturb_byteBuf m draw (by omega)
    · exact .refl
  | nop | frombase | encblk | decblk | xlate | badOpReservedOpcode | badOpReservedBits => exact .refl

theorem resetPulse_cellWrites (s : State) : s.mem.CellWrites s.params s.resetPulse.mem := by
  unfold State.resetPulse
  cases s.pending with
  | none => exact .refl
  | some p => exact abandonedMem_cellWrites ..

theorem digitCells_length (ds : List Nat) : (digitCells ds).length = Config.maxDigits := by
  rw [digitCells, List.length_map, List.length_range]

@[simp] theorem bytesOfWord_length (w : Word) : (bytesOfWord w).length = 4 := rfl

theorem exec_cellWrites {i : Instr} {s t : State} (h : exec i s = .next t) : s.mem.CellWrites s.params t.mem := by
  have hp := params_bounds s.params
  rcases exec_mem h with e | ⟨_, ds, e⟩ | ⟨_, ts, hts, e⟩ | ⟨_, bs, hbs, e⟩ | ⟨_, hg, e⟩ <;> rw [e]
  · exact .refl
  · exact Memory.CellWrites.refl.storeDigits (by rw [digitCells_length]; omega)
  · refine .storeList .refl ?_
    rw [entries_length]
    exact .words (by simp only [groupAddr]; omega) (by simp only [groupAddr]; omega)
      rfl (by omega)
  · exact .storeList .refl (.bytes (by simp only [byteAddr]; omega) (by simp only [byteAddr]; omega))
  · exact cellWrites_disturb_byteBuf _ _ (by omega)

theorem hostWrite_cellWrites (s : State) (a : HostAddr) (d : Word) :
    s.mem.CellWrites s.params (s.hostWrite a d).mem := by
  have hp := params_bounds s.params
  rcases hostWrite_cases s a d with e | ⟨_, e | e | e | ⟨_, e⟩ | ⟨_, e | ⟨n, e⟩ | ⟨j, hj, e⟩ | ⟨w, hw, e⟩ |
    ⟨k, i, hk, hi, e⟩⟩⟩ <;> rw [e]
  · exact .refl
  · exact resetPulse_cellWrites s
  · exact .refl
  · exact .refl
  · exact .refl
  · exact .refl
  · exact .refl
  · exact Memory.CellWrites.refl.store16 hj _
  · refine .storeList .refl (.bytes ?_ ?_) <;> simp only [byteAddr, bytesOfWord_length] <;> omega
  · refine .storeList .refl (.words ?_ ?_ ?_ (by simp)) <;> simp only [groupAddr, bytesOfWord_length] <;> omega

theorem State.BuffersOk.of_cellWrites {s t : State} (h : s.BuffersOk) (hm : s.mem.CellWrites s.params t.mem)
    (hp : t.params = s.params) : t.BuffersOk := by
  obtain ⟨wf, populated, whole⟩ := h.cellWrites hm
  refine ⟨wf, ?_, ?_⟩
  · rw [State.memPopulated, hp]; exact populated
  · rw [State.cellsWhole, hp]; exact whole

/-! ### The invariant -/

/-- Settles O11: every step writes whole cells that exist, and such writes keep the buffers as they should be. -/
theorem buffersKeptByStep : Obligations.BuffersKeptByStep := by
  intro s t
  refine step_keeps (P := State.BuffersOk) ?host ?tick ?write ?reset ?engine
  case host => exact fun s _ _ _ _ h => ⟨h.wf, h.populated, h.whole⟩
  case tick => exact fun s h => ⟨h.wf, h.populated, h.whole⟩
  case write => exact fun s a d h => h.of_cellWrites (hostWrite_cellWrites s a d) (hostWrite_params s a d)
  case reset =>
    intro s level h
    cases level
    · exact ⟨h.wf, h.populated, h.whole⟩
    · exact h.of_cellWrites (resetPulse_cellWrites s) rfl
  case engine => exact fun s t p _ he h => h.of_cellWrites (exec_cellWrites he) (exec_params he)

end Sys2Proof.Machine

/-! ## PENDING, BUSY, the snapshot and the registers in reset -/

namespace Sys2Proof.Machine

/-- A plain register write leaves BUSY alone (R18, R24). -/
@[simp] theorem Regs.writeReg_busy (g : Regs) (d : Word) (n : RegName) : (g.writeReg d n).busy = g.busy := by
  cases n <;> rfl

namespace State.PendingOk

variable {s t : State}

/-- With BUSY = 0 there is no command in progress (R39). -/
theorem pending_none (h : s.PendingOk) (hb : s.regs.busy = false) : s.pending = none := by
  simpa [hb] using h.busy.symm

/-- A command in progress has BUSY = 1 (R39). -/
theorem busy_true (h : s.PendingOk) {p : Pending} (hp : s.pending = some p) : s.regs.busy = true := by
  rw [h.busy, hp]; rfl

/-- A command is in progress only while `rst` is released (R124). -/
theorem rst_false (h : s.PendingOk) {p : Pending} (hp : s.pending = some p) : s.rst = false := by
  cases hr : s.rst with
  | false => rfl
  | true => obtain ⟨_, hn⟩ := h.inReset hr; simp [hp] at hn

/-- A state with BUSY = 0, no command in progress and `rst` released. -/
theorem of_idle (hb : t.regs.busy = false) (hp : t.pending = none) (hr : t.rst = false) : t.PendingOk where
  busy := by rw [hb, hp]; rfl
  snapshot p h := by simp [hp] at h
  notDone h := by simp [hb] at h
  inReset h := by simp [hr] at h

/-- A state whose registers have their reset values, with no command in progress. -/
theorem of_reset (hg : t.regs = Regs.reset) (hp : t.pending = none) : t.PendingOk where
  busy := by rw [hg, hp]; rfl
  snapshot p h := by simp [hp] at h
  notDone h := by rw [hg] at h; cases h
  inReset _ := ⟨hg, hp⟩

/-- Only the delay of a pending command changes when it grows shorter. -/
theorem tick (h : s.PendingOk) : s.tick.PendingOk where
  busy := by rw [State.tick_regs, h.busy, State.tick, Option.isSome_map]
  snapshot q hq := by
    obtain ⟨p, hp, rfl⟩ := Option.map_eq_some_iff.1 hq
    exact h.snapshot p hp
  notDone := h.notDone
  inReset hr := by
    obtain ⟨hg, hp⟩ := h.inReset hr
    exact ⟨hg, by rw [State.tick, hp]; rfl⟩

/-- What the snapshot may differ in, CTRL.IE and STATUS.OVR, may change while `rst` is released, and DONE, which is 0
while busy, may be cleared (R22, R24, R128). -/
theorem flags (h : s.PendingOk) (hr : s.rst = false) (ie ovr : Bool) {done : Bool}
    (hd : s.regs.done = false → done = false) :
    ({ s with regs := { s.regs with ie := ie, ovr := ovr, done := done } } : State).PendingOk where
  busy := h.busy
  snapshot p hp := by
    obtain ⟨hword, hmem, hregs⟩ := h.snapshot p hp
    obtain ⟨hdone, _⟩ := h.notDone (h.busy_true hp)
    refine ⟨hword, hmem, ?_⟩
    rw [hd hdone, ← hdone]
    exact congrArg (fun g : Regs => { g with ie := ie, ovr := ovr }) hregs
  notDone hb := by
    obtain ⟨hdone, record⟩ := h.notDone hb
    exact ⟨hd hdone, record⟩
  inReset h' := by simp [hr] at h'

/-- An accepted command is pending with the live registers and buffers as its snapshot (R102). -/
theorem acceptCmd (hr : s.rst = false) (d : Word) : (s.acceptCmd d).PendingOk where
  busy := rfl
  snapshot p hp := by cases hp; exact ⟨rfl, rfl, rfl⟩
  notDone _ := ⟨rfl, rfl, rfl, rfl, rfl, rfl⟩
  inReset h := by simp [State.acceptCmd, hr] at h

theorem hostWrite (h : s.PendingOk) (a : HostAddr) (d : Word) : (s.hostWrite a d).PendingOk := by
  rcases hostWrite_cases s a d with e | ⟨hr, e | e | e | ⟨_, e⟩ | ⟨hb, e | ⟨n, e⟩ | ⟨_, _, e⟩ | ⟨_, _, e⟩ |
    ⟨_, _, _, _, e⟩⟩⟩ <;> rw [e]
  · exact h
  · exact of_reset rfl rfl
  · exact h.flags hr (d.getLsbD 0) s.regs.ovr id
  · exact h.flags hr s.regs.ie (s.regs.ovr && !d.getLsbD 2) fun hd => by rw [hd]; rfl
  · exact h.flags hr s.regs.ie true id
  · exact acceptCmd hr d
  · exact of_idle (by simpa using hb) (h.pending_none hb) hr
  · exact of_idle hb (h.pending_none hb) hr
  · exact of_idle hb (h.pending_none hb) hr
  · exact of_idle hb (h.pending_none hb) hr

/-- A completed command leaves BUSY = 0 and no command in progress (R103, R111). -/
theorem exec (h : s.PendingOk) {p : Pending} (hp : s.pending = some p) {i : Instr} (he : exec i s = .next t) :
    t.PendingOk := by
  have hr := h.rst_false hp
  rcases exec_cases he with ⟨_, _, _, _, _, rfl, _⟩ | ⟨_, _, rfl, _⟩ <;> exact of_idle rfl rfl hr

end State.PendingOk

/-- Settles O12: the host's writes change of a busy block only what the snapshot may differ in, or reset it. -/
theorem pendingKeptByStep : Obligations.PendingKeptByStep := by
  intro s t
  refine step_keeps (P := State.PendingOk) ?host ?tick ?write ?reset ?engine
  case host => exact fun s _ _ _ _ h => ⟨h.busy, h.snapshot, h.notDone, h.inReset⟩
  case tick => exact fun s h => h.tick
  case write => exact fun s a d h => h.hostWrite a d
  case reset =>
    intro s level h
    cases level with
    | true => exact .of_reset rfl rfl
    | false => exact ⟨h.busy, h.snapshot, h.notDone, fun hr => by cases hr⟩
  case engine => exact fun s t p hp he h => h.exec hp he

end Sys2Proof.Machine

/-! ## The fields that no plain host write changes: the error record and the results -/

namespace Sys2Proof.Machine

/-! ### What a host write does to the registers -/

/-- `new`, with the fields of `g` that only acceptance, completion and reset change (R18, R24, R25, R28,
R29, R32, R33). -/
def Regs.keepReadOnly (g new : Regs) : Regs :=
  { new with
    cmd := g.cmd, busy := g.busy, err := g.err, kind := g.kind, detail := g.detail, errPos := g.errPos,
    errSlot := g.errSlot, blkOut := g.blkOut, blkOutLen := g.blkOutLen, idxOut0 := g.idxOut0, idxOut1 := g.idxOut1,
    idxOut2 := g.idxOut2, idxOutCnt := g.idxOutCnt }

theorem Regs.writeReg_eq_keepReadOnly (g : Regs) (d : Word) (n : RegName) :
    g.writeReg d n = g.keepReadOnly (g.writeReg d n) := by cases n <;> rfl

/-- A host write keeps the read-only fields, or is accepted as a command, or is a reset. -/
theorem hostWrite_regs (s : State) (a : HostAddr) (d : Word) :
    (∃ g, (s.hostWrite a d).regs = s.regs.keepReadOnly g) ∨
    (s.hostWrite a d).regs = { s.regs.clearError with cmd := d, busy := true, done := false } ∨
    (s.hostWrite a d).regs = Regs.reset := by
  rcases hostWrite_cases s a d with e | ⟨_, e | e | e | ⟨_, e⟩ | ⟨_, e | ⟨n, e⟩ | ⟨_, _, e⟩ | ⟨_, _, e⟩ |
    ⟨_, _, _, _, e⟩⟩⟩ <;> rw [e]
  · exact .inl ⟨s.regs, rfl⟩
  · exact .inr (.inr rfl)
  · exact .inl ⟨s.regs.writeCtrl d, rfl⟩
  · exact .inl ⟨s.regs.writeStatus d, rfl⟩
  · exact .inl ⟨{ s.regs with ovr := true }, rfl⟩
  · exact .inr (.inl rfl)
  · exact .inl ⟨_, s.regs.writeReg_eq_keepReadOnly d n⟩
  · exact .inl ⟨s.regs, rfl⟩
  · exact .inl ⟨s.regs, rfl⟩
  · exact .inl ⟨s.regs, rfl⟩

/-- A property of the registers is kept by every step when it does not depend on the fields a plain host write changes,
and acceptance, reset and completion keep it. -/
theorem step_keeps_readOnly {P : State → Prop} (congr : ∀ s t : State, t.regs = s.regs → P s → P t)
    (write : ∀ (s : State) g, P s → P { s with regs := s.regs.keepReadOnly g })
    (accept : ∀ (s : State) w, P s →
      P { s with regs := { s.regs.clearError with cmd := w, busy := true, done := false } })
    (reset : P State.reset)
    (engine : ∀ (s t : State) i, exec i s = .next t → P s → P t)
    {s t : State} (hs : P s) (h : step s = .next t) : P t := by
  refine step_keeps (P := P) ?host ?tick ?write ?reset ?engine hs h
  case host => exact fun s _ _ _ _ => congr s _ rfl
  case tick => exact fun s => congr s _ rfl
  case write =>
    intro s a d hs
    rcases hostWrite_regs s a d with ⟨g, e⟩ | e | e
    · exact congr { s with regs := s.regs.keepReadOnly g } _ e (write s g hs)
    · exact congr { s with regs := { s.regs.clearError with cmd := d, busy := true, done := false } } _ e
        (accept s d hs)
    · exact congr State.reset _ e reset
  case reset =>
    intro s level hs
    cases level with
    | true => exact congr State.reset _ rfl reset
    | false => exact congr s _ rfl hs
  case engine => exact fun s t p _ he => engine s t _ he

/-! ### The error record -/

theorem State.ErrorRecordOk.congr {s t : State} (e : t.regs = s.regs) (h : s.ErrorRecordOk) : t.ErrorRecordOk := by
  obtain ⟨err, kind, position⟩ := h
  refine ⟨?_, ?_, ?_⟩ <;> rw [e] <;> assumption

/-- Every detail but 0 is an error of some kind (R110). -/
theorem Detail.kind_eq_none_iff {d : Detail} : d.kind = .none ↔ d = .none := by
  cases d <;> simp [Detail.kind]

/-- A command records an error with its kind and position, or clears the record (R111). -/
theorem exec_errorRecordOk {i : Instr} {s t : State} (h : exec i s = .next t) : t.ErrorRecordOk := by
  rcases exec_cases h with ⟨d, _, _, _, hd, rfl, _⟩ | ⟨_, _, rfl, _⟩
  · exact ⟨(decide_eq_true (mt Detail.kind_eq_none_iff.1 hd)).symm, rfl, fun h => absurd h hd⟩
  · exact ⟨rfl, rfl, fun _ => ⟨rfl, rfl⟩⟩

/-- Settles O13: no host write touches the record but acceptance and reset, which clear it. -/
theorem errorRecordKeptByStep : Obligations.ErrorRecordKeptByStep := by
  intro s t
  refine step_keeps_readOnly (P := State.ErrorRecordOk) ?congr ?write ?accept ?reset ?engine
  case congr => exact fun s t => State.ErrorRecordOk.congr
  case write => exact fun s g h => ⟨h.err, h.kind, h.position⟩
  case accept => exact fun s w _ => ⟨rfl, rfl, fun _ => ⟨rfl, rfl⟩⟩
  case reset => exact ⟨rfl, rfl, fun _ => ⟨rfl, rfl⟩⟩
  case engine => exact fun s t i he _ => exec_errorRecordOk he

/-! ### The result registers -/

theorem State.ResultsOk.congr {s t : State} (e : t.regs = s.regs) (h : s.ResultsOk) : t.ResultsOk := by
  obtain ⟨tuple, block⟩ := h
  refine ⟨?_, ?_⟩
  · rw [State.tupleOk, e]; exact tuple
  · rw [State.blockOk, e]; exact block

/-- A tuple of at most three indices below 3252 stands in IDX_OUT as R32 says. -/
theorem writeTuple_resultsOk {s : State} (h : s.ResultsOk) {t : List Nat}
    (ht : t.length ≤ 3 ∧ ∀ i ∈ t, i < 3252) : (s.writeTuple t).ResultsOk where
  tuple := by
    obtain ⟨hlen, hlt⟩ := ht
    refine ⟨t, ?_, hlt, rfl, rfl, rfl⟩
    show t.length = (BitVec.ofNat 2 t.length).toNat
    rw [BitVec.toNat_ofNat]; omega
  block := h.block

/-- A block of at most four bytes stands in BLK_OUT as R28 says. -/
theorem writeBlock_resultsOk {s : State} (h : s.ResultsOk) {bs : List Byte} (hl : bs.length ≤ 4) :
    (s.writeBlock bs).ResultsOk where
  tuple := h.tuple
  block := by
    have hlen : (s.writeBlock bs).regs.blkOutLen.toNat = bs.length := by
      show (BitVec.ofNat 3 bs.length).toNat = _
      rw [BitVec.toNat_ofNat]; omega
    rw [State.blockOk, hlen]
    refine ⟨hl, fun i hi hle => ?_⟩
    show lane (blockWord bs) i = 0#8
    rw [lane_blockWord hl hi, List.getD_eq_default _ _ hle]

theorem encblkOutcome_ok {o : Snapshot} {t : List Nat} (h : encblkOutcome o = .ok t) :
    t.length ≤ 3 ∧ ∀ i ∈ t, i < 3252 := by
  unfold encblkOutcome at h
  split at h
  · cases h
  · obtain ⟨⟨h1, h4⟩, rfl⟩ := encodeBlock_eq_ok_iff.1 h
    refine ⟨?_, blockTuple_lt _⟩
    rw [blockTuple_length h1 h4, canonLen_eq h1 h4]
    split <;> omega

theorem xlateOutcome_ok {o : Snapshot} {t : List Nat} (h : xlateOutcome o = .ok t) :
    t.length ≤ 3 ∧ ∀ i ∈ t, i < 3252 := by
  unfold xlateOutcome at h
  split at h
  · cases h
  · rename_i hlt
    cases h
    simpa using hlt

theorem decblkOutcome_ok {o : Snapshot} {bs : List Byte} (h : decblkOutcome o = .ok bs) : bs.length ≤ 4 := by
  have hcnt := o.regs.idxInCnt.isLt
  exact (decodeBlock_ok_length (by simp only [Regs.idxInSlots, List.length_cons, List.length_nil]; omega) h).2

/-- A command leaves results in the result registers when its result writes do: an error writes none (R104). -/
theorem commit_resultsOk {α : Type} {s : State} (h : s.ResultsOk) {outcome : Except CmdError α}
    {write : State → α → State} (hw : ∀ a, outcome = .ok a → (write s a).ResultsOk) :
    (s.commit outcome write).ResultsOk := by
  cases outcome with
  | error e => exact ⟨h.tuple, h.block⟩
  | ok a => exact ⟨(hw a rfl).tuple, (hw a rfl).block⟩

theorem exec_resultsOk {i : Instr} {s t : State} (h : s.ResultsOk) (he : exec i s = .next t) : t.ResultsOk := by
  cases i <;> injection he with he <;> subst he
  case encblk => exact commit_resultsOk h fun t ht => writeTuple_resultsOk h (encblkOutcome_ok ht)
  case xlate => exact commit_resultsOk h fun t ht => writeTuple_resultsOk h (xlateOutcome_ok ht)
  case decblk => exact commit_resultsOk h fun bs hb => writeBlock_resultsOk h (decblkOutcome_ok hb)
  case decseq =>
    have hd : (decseqDisturbed s (decseqOutcome s.params s.operands s.draws)).ResultsOk := by
      rcases decseqDisturbed_eq s (decseqOutcome s.params s.operands s.draws) with e | ⟨_, _, _, e⟩ <;> rw [e]
      · exact h
      · exact .congr (State.disturbSeq_regs ..) h
    exact commit_resultsOk hd fun _ _ => ⟨hd.tuple, hd.block⟩
  all_goals exact commit_resultsOk h fun _ _ => ⟨h.tuple, h.block⟩

/-- Settles O14: only ENCBLK, XLATE and DECBLK write the result registers, and what they write are results. -/
theorem resultsKeptByStep : Obligations.ResultsKeptByStep := by
  intro s t
  refine step_keeps_readOnly (P := State.ResultsOk) ?congr ?write ?accept ?reset ?engine
  case congr => exact fun s t => State.ResultsOk.congr
  case write => exact fun s g h => ⟨h.tuple, h.block⟩
  case accept => exact fun s w h => ⟨h.tuple, h.block⟩
  case reset =>
    refine ⟨⟨[], rfl, by simp, rfl, rfl, rfl⟩, by decide, fun i _ _ => ?_⟩
    show lane 0#32 i = 0#8
    simp [lane]
  case engine => exact fun s t i he h => exec_resultsOk h he

end Sys2Proof.Machine

/-! ## The register page and the unpopulated addresses, as the host sees them -/

namespace Sys2Proof.Machine

/-! ### Addresses -/

theorem target_scriptAddr_reg (p : Config.Params) (n : RegName) : target p (scriptAddr (.reg n)) = .reg n := by
  cases n <;> rfl

theorem target_ofNat (p : Config.Params) {x : Nat} (h : x < 2 ^ 20) (h4 : x % 4 = 0) :
    target p (BitVec.ofNat 20 x) = targetAt p x := by
  rw [target, BitVec.toNat_ofNat, Nat.mod_eq_of_lt h, h4, Nat.sub_zero]

theorem targetAt_digit (p : Config.Params) {j : Nat} (hj : j < 64) : targetAt p (0x100 + 4 * j) = .digit j := by
  rcases targetAt_cases p (0x100 + 4 * j) with ⟨n, hn, _⟩ | ⟨_, ⟨_, _, e⟩ | ⟨_, _, _⟩ | ⟨_, _, _⟩ | ⟨_, _, _, _⟩⟩
  · have := regOffset_le n; omega
  · rw [e]; congr 1; omega
  all_goals omega

theorem targetAt_bytes (p : Config.Params) {w : Nat} (hw : 4 * w < p.bufBytes) :
    targetAt p (0x10000 + 4 * w) = .bytes w := by
  have hp := params_bounds p
  rcases targetAt_cases p (0x10000 + 4 * w) with ⟨n, hn, _⟩ | ⟨_, ⟨_, _, _⟩ | ⟨_, _, e⟩ | ⟨_, _, _⟩ | ⟨_, _, _, _⟩⟩
  · have := regOffset_le n; omega
  · omega
  · rw [e]; congr 1; omega
  all_goals omega

theorem targetAt_group (p : Config.Params) {k i : Nat} (hk : k < p.groupEntries) (hi : i < 4) :
    targetAt p (0x40000 + 16 * k + 4 * i) = .group k i := by
  have hp := params_bounds p
  rcases targetAt_cases p (0x40000 + 16 * k + 4 * i) with
    ⟨n, hn, _⟩ | ⟨_, ⟨_, _, _⟩ | ⟨_, _, _⟩ | ⟨_, _, e⟩ | ⟨_, _, _, _⟩⟩
  · have := regOffset_le n; omega
  · omega
  · omega
  · rw [e]; congr 1 <;> omega
  · omega

/-- The addresses of no register and outside the populated part of every window lead nowhere (R43). -/
theorem targetAt_reserved (p : Config.Params) {a : Nat}
    (h : a = 0x018 ∨ a = 0x01C ∨ (0x068 ≤ a ∧ a < 0x100) ∨ (0x200 ≤ a ∧ a < 0x10000) ∨
      (0x10000 + p.bufBytes ≤ a ∧ a < 0x40000) ∨ 0x40000 + 4 * p.bufBytes ≤ a) :
    targetAt p a = .reserved := by
  rcases targetAt_cases p a with ⟨n, hn, _⟩ | ⟨_, ⟨_, _, _⟩ | ⟨_, _, _⟩ | ⟨_, _, _⟩ | ⟨_, _, _, e⟩⟩
  · have := regOffset_le n; omega
  · omega
  · omega
  · omega
  · exact e

/-- Settles O44: the populated addresses of each window lead to its cells, and the offsets of R19 to the registers. -/
theorem namesReachTheirTargets : Obligations.NamesReachTheirTargets := by
  intro p
  have hp := params_bounds p
  have addr : ∀ x, x < 2 ^ 20 → (BitVec.ofNat 20 x).toNat = x := fun x hx => by
    rw [BitVec.toNat_ofNat, Nat.mod_eq_of_lt hx]
  refine ⟨fun n => ?_, fun j hj => ?_, fun w hw => ?_, fun k hk => ⟨?_, fun j hj => ?_⟩, fun a => rfl⟩
  · cases n <;> exact ⟨rfl, rfl, rfl⟩
  · exact ⟨addr _ (by simp only [digitAddr]; omega), by rw [target_ofNat p (by omega) (by omega), targetAt_digit p hj]⟩
  · exact ⟨addr _ (by simp only [byteAddr]; omega), by rw [target_ofNat p (by omega) (by omega), targetAt_bytes p hw]⟩
  · exact ⟨addr _ (by simp only [groupAddr]; omega),
      by rw [target_ofNat p (by omega) (by omega)]; exact targetAt_group p hk (i := 0) (by omega)⟩
  · exact ⟨addr _ (by simp only [groupAddr]; omega),
      by rw [target_ofNat p (by omega) (by omega), targetAt_group p hk (by omega)]⟩

/-! ### Transactions -/

section
variable {s : State} {a : HostAddr} {d : Word} {n : RegName}

/-- A register read returns the register when BUSY = 0, and five of them at any time (R129). -/
theorem hostRead_reg (hr : s.rst = false) (h : s.regs.busy = false ∨ readableBusy (.reg n) = true) :
    s.hostRead (scriptAddr (.reg n)) = s.readReg n := by
  rw [State.hostRead, target_scriptAddr_reg, hr]
  rcases h with h | h <;> simp [h, State.readTarget]

/-- A write to any target but CTRL and STATUS, when idle (R41 to R46, R102). -/
theorem hostWrite_idle (hr : s.rst = false) (hb : s.regs.busy = false) (hc : target s.params a ≠ .reg .ctrl)
    (hs : target s.params a ≠ .reg .status) : s.hostWrite a d = s.writeTarget d (target s.params a) := by
  rw [State.hostWrite, hr]
  split
  · contradiction
  · split
    · contradiction
    · contradiction
    · simp [hb]

theorem hostWrite_ctrl (hr : s.rst = false) : s.hostWrite (scriptAddr (.reg .ctrl)) d = s.writeCtrl d := by
  rw [State.hostWrite, target_scriptAddr_reg, hr]; rfl

/-- A write to CTRL without SRST sets IE and changes nothing else (R22). -/
theorem hostWrite_ctrl_ie (hr : s.rst = false) (hd : d.getLsbD 1 = false) :
    s.hostWrite (scriptAddr (.reg .ctrl)) d = { s with regs := s.regs.writeCtrl d } := by
  rw [hostWrite_ctrl hr, State.writeCtrl, hd]; rfl

theorem hostWrite_status (hr : s.rst = false) :
    s.hostWrite (scriptAddr (.reg .status)) d = { s with regs := s.regs.writeStatus d } := by
  rw [State.hostWrite, target_scriptAddr_reg, hr]; rfl

theorem hostWrite_cmd (hr : s.rst = false) (hb : s.regs.busy = false) :
    s.hostWrite (scriptAddr (.reg .cmd)) d = s.acceptCmd d := by
  have e := target_scriptAddr_reg s.params .cmd
  rw [hostWrite_idle hr hb (by simp [e]) (by simp [e]), e]; rfl

/-- A write to a register of plain storage, or to a read-only one, when idle (R18). -/
theorem hostWrite_reg (hr : s.rst = false) (hb : s.regs.busy = false) (hn : n ∉ [.ctrl, .cmd, .status]) :
    s.hostWrite (scriptAddr (.reg n)) d = { s with regs := s.regs.writeReg d n } := by
  have e := target_scriptAddr_reg s.params n
  simp only [List.mem_cons, List.not_mem_nil, or_false, not_or] at hn
  obtain ⟨hc, hm, hs⟩ := hn
  rw [hostWrite_idle hr hb (by simpa [e] using hc) (by simpa [e] using hs), e]
  simp [State.writeTarget]

end

/-- Settles O49: such an address is the target `reserved`, which reads 0 and ignores writes. -/
theorem reservedAddressesInert : Obligations.ReservedAddressesInert := by
  intro s a d hr hb h
  have e : target s.params a = .reserved := targetAt_reserved s.params h
  refine ⟨?_, ?_⟩
  · rw [hostRead_idle s a hr hb, e]; rfl
  · rw [hostWrite_idle hr hb (by rw [e]; decide) (by rw [e]; decide), e]; rfl

/-- Settles O51: a write to a register stores the bits of its field, and these have none the host can write. -/
theorem readOnlyRegistersIgnoreWrites : Obligations.ReadOnlyRegistersIgnoreWrites := by
  intro s a d hb ha
  cases hr : s.rst with
  | true => rw [State.hostWrite, if_pos hr]
  | false =>
    have key : ∀ n, n ∉ [RegName.ctrl, .cmd, .status] → s.regs.writeReg d n = s.regs →
        s.hostWrite (scriptAddr (.reg n)) d = s := fun n hn e => by rw [hostWrite_reg hr hb hn, e]
    simp only [List.mem_cons, List.not_mem_nil, or_false] at ha
    rcases ha with rfl | rfl | rfl | rfl | rfl | rfl | rfl | rfl | rfl
    · exact key .id (by decide) rfl
    · exact key .param (by decide) rfl
    · exact key .errPos (by decide) rfl
    · exact key .blkOut (by decide) rfl
    · exact key .blkOutLen (by decide) rfl
    · exact key .idxOut0 (by decide) rfl
    · exact key .idxOut1 (by decide) rfl
    · exact key .idxOut2 (by decide) rfl
    · exact key .idxOutCnt (by decide) rfl

/-! ### Register words as numbers -/

theorem paramWord_toNat (p : Config.Params) : (paramWord p).toNat = p.groupEntries * 2 ^ 16 + 0x4040 := by
  have := params_bounds p
  rw [paramWord, BitVec.toNat_ofNat]; simp only [Config.valWidth, Config.maxDigits]; omega

theorem Regs.ctrlWord_toNat (g : Regs) : g.ctrlWord.toNat = g.ie.toNat := by
  cases h : g.ie <;> simp [Regs.ctrlWord, h]

theorem Kind.code_lt (k : Kind) : k.code < 4 := by cases k <;> decide

theorem Detail.code_lt (d : Detail) : d.code < 16 := by cases d <;> decide

theorem Regs.statusWord_toNat (g : Regs) :
    g.statusWord.toNat = g.busy.toNat + 2 * g.done.toNat + 4 * g.ovr.toNat + 8 * g.err.toNat + 16 * g.kind.code +
      256 * g.detail.code := by
  have := g.busy.toNat_lt; have := g.done.toNat_lt; have := g.ovr.toNat_lt; have := g.err.toNat_lt
  have := g.kind.code_lt; have := g.detail.code_lt
  rw [Regs.statusWord, BitVec.toNat_ofNat]; omega

theorem Regs.errPosWord_toNat (g : Regs) : g.errPosWord.toNat = g.errPos.toNat + g.errSlot.toNat * 2 ^ 16 := by
  have := g.errPos.isLt; have := g.errSlot.isLt
  rw [Regs.errPosWord, BitVec.toNat_ofNat]; omega

theorem Slot.word_toNat (x : Slot) : x.word.toNat = x.idx.toNat + x.recog.toNat * 2 ^ 31 := by
  have := x.idx.isLt; have := x.recog.toNat_lt
  rw [Slot.word, BitVec.toNat_ofNat]; omega

/-- Settles O52: ID and PARAM read at any time, and the fields of PARAM are digits of its number. -/
theorem idAndParamFields : Obligations.IdAndParamFields := by
  intro s hr
  have hp := params_bounds s.params
  have hparam : s.hostRead 0x00004#20 = paramWord s.params := hostRead_reg (n := .param) hr (.inr rfl)
  have hnat := paramWord_toNat s.params
  refine ⟨hostRead_reg (n := .id) hr (.inr rfl), ?_, ?_, ?_, hp.1, by omega, by omega⟩ <;> rw [hparam]
  · apply BitVec.eq_of_toNat_eq; rw [extract_toNat, hnat]; simp only [BitVec.toNat_ofNat]; omega
  · apply BitVec.eq_of_toNat_eq; rw [extract_toNat, hnat]; simp only [BitVec.toNat_ofNat]; omega
  · rw [extract_toNat, hnat]; omega

/-! ### Fields read back -/

/-- A field of `k` bits at bit 0 stores and reads the low `k` bits (R18). -/
theorem zeroExtend_extractLsb' (d : Word) {k : Nat} (hk : k ≤ 32) :
    (d.extractLsb' 0 k).zeroExtend 32 = d &&& BitVec.ofNat 32 (2 ^ k - 1) := by
  apply BitVec.eq_of_toNat_eq
  have : 2 ^ k ≤ 2 ^ 32 := Nat.pow_le_pow_right (by omega) hk
  rw [BitVec.zeroExtend, BitVec.toNat_setWidth_of_le hk, extract_toNat, BitVec.toNat_and, BitVec.toNat_ofNat,
    Nat.mod_eq_of_lt (a := 2 ^ k - 1) (by omega), Nat.and_two_pow_sub_one_eq_mod, pow_zero, Nat.div_one]

/-- An IDX_IN register stores and reads IDX and RECOG (R30). -/
theorem writeSlot_word (d : Word) : (writeSlot d).word = d &&& 0x80000FFF#32 := by
  apply BitVec.eq_of_toNat_eq
  have mask : (0x80000FFF#32).toNat = 2 ^ 31 ||| (2 ^ 12 - 1) := by decide
  rw [BitVec.toNat_and, mask, Nat.and_or_distrib_left, Nat.and_two_pow_sub_one_eq_mod, Nat.and_two_pow,
    Nat.mul_comm, ← Nat.two_pow_add_eq_or_of_lt (by omega), Slot.word_toNat]
  show (d.extractLsb' 0 12).toNat + (d.getLsbD 31).toNat * 2 ^ 31 = 2 ^ 31 * (d.getLsbD 31).toNat + _
  rw [extract_toNat, pow_zero, Nat.div_one]; omega

/-- A register write leaves what every other register reads: no two share a field (R18). -/
theorem readReg_writeReg_of_ne (s : State) (d : Word) {n n' : RegName} (h : n' ≠ n) :
    ({ s with regs := s.regs.writeReg d n } : State).readReg n' = s.readReg n' := by
  cases n <;> cases n' <;> first | rfl | contradiction

/-- A write to a register of plain storage changes registers only, reads back the bits of its field, and leaves what
every other register reads (R18). -/
theorem hostWrite_reg_readBack {s : State} {d mask : Word} {n : RegName} (hr : s.rst = false) (hb : s.regs.busy = false)
    (hn : n ∉ [.ctrl, .cmd, .status])
    (field : ({ s with regs := s.regs.writeReg d n } : State).readReg n = d &&& mask) :
    ∃ g : Regs, s.hostWrite (scriptAddr (.reg n)) d = { s with regs := g } ∧
      ({ s with regs := g } : State).hostRead (scriptAddr (.reg n)) = d &&& mask ∧
      ∀ n', n' ≠ n → ({ s with regs := g } : State).readReg n' = s.readReg n' := by
  refine ⟨s.regs.writeReg d n, hostWrite_reg hr hb hn, ?_, fun n' => readReg_writeReg_of_ne s d⟩
  have hb' : (s.regs.writeReg d n).busy = false := by rw [Regs.writeReg_busy, hb]
  exact (hostRead_reg (s := { s with regs := s.regs.writeReg d n }) hr (.inl hb')).trans field

/-- CTRL reads back bit 0 of what was written (R22). -/
theorem Regs.writeCtrl_ctrlWord (g : Regs) (d : Word) : (g.writeCtrl d).ctrlWord = d &&& 0x1#32 := by
  rw [BitVec.and_one_eq_setWidth_ofBool_getLsbD, Regs.ctrlWord, Regs.writeCtrl]
  cases d.getLsbD 0 <;> rfl

/-- Settles O50: register by register, what is read, and what a write of its field leaves to read. -/
theorem registerReadBack : Obligations.RegisterReadBack := by
  intro s hr hb
  have rd : ∀ n, s.hostRead (scriptAddr (.reg n)) = s.readReg n := fun n => hostRead_reg hr (.inl hb)
  have field : ∀ n {k : Nat} (x : BitVec k), k ≤ 32 → s.readReg n = x.zeroExtend 32 →
      (s.hostRead (scriptAddr (.reg n))).toNat = x.toNat := fun n k x hk e => by
    rw [rd, e, BitVec.zeroExtend, BitVec.toNat_setWidth_of_le hk]
  refine ⟨⟨rd .id, ?_, ?_, rd .cmd, ?_, ?_, rd .blkIn, field .blkLen _ (by decide) rfl, rd .blkOut,
    field .blkOutLen _ (by decide) rfl, ?_, ?_, ?_, field .idxInCnt _ (by decide) rfl, rd .idxOut0, rd .idxOut1,
    rd .idxOut2, field .idxOutCnt _ (by decide) rfl, field .base _ (by decide) rfl, rd .valLo, rd .valHi,
    field .ndig _ (by decide) rfl, field .seqLen _ (by decide) rfl, field .grpCnt _ (by decide) rfl⟩, ?_, ?_, ?_⟩
  · exact (congrArg BitVec.toNat (rd .param)).trans (paramWord_toNat _)
  · exact (congrArg BitVec.toNat (rd .ctrl)).trans (Regs.ctrlWord_toNat _)
  · refine (congrArg BitVec.toNat (rd .status)).trans ((Regs.statusWord_toNat _).trans ?_)
    rw [hb]; simp
  · exact (congrArg BitVec.toNat (rd .errPos)).trans (Regs.errPosWord_toNat _)
  · exact (congrArg BitVec.toNat (rd .idxIn0)).trans (Slot.word_toNat _)
  · exact (congrArg BitVec.toNat (rd .idxIn1)).trans (Slot.word_toNat _)
  · exact (congrArg BitVec.toNat (rd .idxIn2)).trans (Slot.word_toNat _)
  · intro n a mask d h
    have word : d = d &&& 0xFFFFFFFF#32 := BitVec.and_allOnes.symm
    have low : ∀ {k : Nat}, k ≤ 32 → (d.extractLsb' 0 k).zeroExtend 32 = d &&& BitVec.ofNat 32 (2 ^ k - 1) :=
      zeroExtend_extractLsb' d
    simp only [List.mem_cons, List.not_mem_nil, or_false, Prod.mk.injEq] at h
    rcases h with ⟨rfl, rfl, rfl⟩ | ⟨rfl, rfl, rfl⟩ | ⟨rfl, rfl, rfl⟩ | ⟨rfl, rfl, rfl⟩ | ⟨rfl, rfl, rfl⟩ |
      ⟨rfl, rfl, rfl⟩ | ⟨rfl, rfl, rfl⟩ | ⟨rfl, rfl, rfl⟩ | ⟨rfl, rfl, rfl⟩ | ⟨rfl, rfl, rfl⟩ | ⟨rfl, rfl, rfl⟩ |
      ⟨rfl, rfl, rfl⟩
    · exact hostWrite_reg_readBack hr hb (n := .blkIn) (by decide) word
    · exact hostWrite_reg_readBack hr hb (n := .blkLen) (by decide) (low (k := 3) (by decide))
    · exact hostWrite_reg_readBack hr hb (n := .idxIn0) (by decide) (writeSlot_word d)
    · exact hostWrite_reg_readBack hr hb (n := .idxIn1) (by decide) (writeSlot_word d)
    · exact hostWrite_reg_readBack hr hb (n := .idxIn2) (by decide) (writeSlot_word d)
    · exact hostWrite_reg_readBack hr hb (n := .idxInCnt) (by decide) (low (k := 2) (by decide))
    · exact hostWrite_reg_readBack hr hb (n := .base) (by decide) (low (k := 16) (by decide))
    · exact hostWrite_reg_readBack hr hb (n := .valLo) (by decide) word
    · exact hostWrite_reg_readBack hr hb (n := .valHi) (by decide) word
    · exact hostWrite_reg_readBack hr hb (n := .ndig) (by decide) (low (k := 7) (by decide))
    · exact hostWrite_reg_readBack hr hb (n := .seqLen) (by decide) (low (k := 16) (by decide))
    · exact hostWrite_reg_readBack hr hb (n := .grpCnt) (by decide) (low (k := 16) (by decide))
  · intro d hd
    rw [show (0x00008#20 : HostAddr) = scriptAddr (.reg .ctrl) from rfl, hostWrite_ctrl_ie hr hd]
    exact (hostRead_reg (s := { s with regs := s.regs.writeCtrl d }) hr (.inr rfl)).trans (s.regs.writeCtrl_ctrlWord d)
  · intro d
    rw [show (0x0000C#20 : HostAddr) = scriptAddr (.reg .cmd) from rfl, hostWrite_cmd hr hb]
    exact hostRead_reg (n := .cmd) hr (.inr rfl)

/-! ### STATUS bit by bit -/

theorem Regs.statusWord_done (g : Regs) : g.statusWord.getLsbD 1 = g.done := by
  rw [BitVec.getLsbD, Nat.testBit_eq_decide_div_mod_eq, g.statusWord_toNat]
  have := g.busy.toNat_lt
  cases g.done <;> simp <;> omega

theorem Regs.statusWord_ovr (g : Regs) : g.statusWord.getLsbD 2 = g.ovr := by
  rw [BitVec.getLsbD, Nat.testBit_eq_decide_div_mod_eq, g.statusWord_toNat]
  have := g.busy.toNat_lt; have := g.done.toNat_lt
  cases g.ovr <;> simp <;> omega

/-- The fields above OVR do not depend on the three flags below them. -/
theorem Regs.statusWord_div_eight (g : Regs) :
    g.statusWord.toNat / 2 ^ 3 = g.err.toNat + 2 * g.kind.code + 32 * g.detail.code := by
  have := g.busy.toNat_lt; have := g.done.toNat_lt; have := g.ovr.toNat_lt
  rw [g.statusWord_toNat]; omega

/-- A write to STATUS leaves every bit but DONE and OVR (R18, R24). -/
theorem Regs.writeStatus_getLsbD (g : Regs) (d : Word) {i : Nat} (h1 : i ≠ 1) (h2 : i ≠ 2) :
    (g.writeStatus d).statusWord.getLsbD i = g.statusWord.getLsbD i := by
  rcases Nat.eq_zero_or_pos i with rfl | hi
  · rw [statusWord_busy, statusWord_busy]; rfl
  · obtain ⟨k, rfl⟩ : ∃ k, i = k + 3 := ⟨i - 3, by omega⟩
    rw [BitVec.getLsbD, BitVec.getLsbD, ← Nat.testBit_div_two_pow, ← Nat.testBit_div_two_pow,
      Regs.statusWord_div_eight, Regs.statusWord_div_eight]
    rfl

/-- The bits of a STATUS write's two masks: DONE and OVR, and all others. -/
theorem getLsbD_statusMasks {i : Nat} (hi : i < 32) :
    (0x6#32).getLsbD i = decide (i = 1 ∨ i = 2) ∧ (0xFFFFFFF9#32).getLsbD i = decide (i ≠ 1 ∧ i ≠ 2) := by
  revert i; decide

/-- Settles O55: bit by bit, of which a STATUS write changes only 1 and 2. -/
theorem statusAndCtrlWrites : Obligations.StatusAndCtrlWrites := by
  intro s d hr
  have hs : s.hostWrite 0x00010#20 d = { s with regs := s.regs.writeStatus d } := hostWrite_status hr
  refine ⟨fun hd => hostWrite_ctrl_ie hr hd, hs, ?_, ?_⟩ <;> rw [hs] <;> refine BitVec.eq_of_getLsbD_eq fun i hi => ?_
  · rw [BitVec.getLsbD_and, BitVec.getLsbD_and, (getLsbD_statusMasks hi).2]
    by_cases h : i ≠ 1 ∧ i ≠ 2
    · rw [s.regs.writeStatus_getLsbD d h.1 h.2]
    · simp [h]
  · rw [BitVec.getLsbD_and, BitVec.getLsbD_and, BitVec.getLsbD_and, (getLsbD_statusMasks hi).1, BitVec.getLsbD_not]
    by_cases h : i = 1 ∨ i = 2
    · rcases h with rfl | rfl
      · rw [Regs.statusWord_done, Regs.statusWord_done]; rfl
      · rw [Regs.statusWord_ovr, Regs.statusWord_ovr]; rfl
    · simp [h]

/-! ### Reset and acceptance -/

/-- Settles O57, register by register. -/
theorem resetRegisterValues : Obligations.ResetRegisterValues := by
  refine ⟨fun n => ?_, fun a => rfl, rfl, rfl, rfl⟩
  cases n <;> rfl

/-- Settles O7: a delay of 0 makes the completion step the next one. -/
theorem fetchedWordRunsNext : Obligations.FetchedWordRunsNext := by
  refine ⟨fun s p hp => by rw [State.operands, hp], fun s w => ?_⟩
  have e : s.withFetchWord 32 w.toNat = State.accept { s with rst := false } w 0 := by
    rw [State.withFetchWord, Nat.mod_eq_of_lt w.isLt, BitVec.ofNat_toNat, BitVec.setWidth_eq]
  rw [e]
  exact ⟨rfl, rfl, rfl, rfl⟩

end Sys2Proof.Machine

/-! ## The buffers and the host's turn, as the host sees them -/

namespace Sys2Proof.Machine

/-! ### Cells -/

section
variable {m : Memory} {a : Nat} {b0 b1 b2 b3 : Byte}

/-- A written 16-bit cell reads as its two bytes (R47). -/
theorem Memory.cell16_of_some (h0 : m.byte? a = some b0) (h1 : m.byte? (a + 1) = some b1) (draw : Nat) :
    m.cell16 draw a = b1 ++ b0 := by
  rw [Memory.cell16, Memory.byteAt_of_some h0, Memory.byteAt_of_some h1]

/-- A written word reads as its four bytes (R47). -/
theorem Memory.cell32_of_some (h0 : m.byte? a = some b0) (h1 : m.byte? (a + 1) = some b1)
    (h2 : m.byte? (a + 2) = some b2) (h3 : m.byte? (a + 3) = some b3) (draw : Nat) :
    m.cell32 draw a = wordOfBytes b0 b1 b2 b3 := by
  rw [Memory.cell32, Memory.byteAt_of_some h0, Memory.byteAt_of_some h1, Memory.byteAt_of_some h2,
    Memory.byteAt_of_some h3]

end

/-- After a 16-bit store: the low byte at `a`, the high byte at `a + 1`, and elsewhere what was there. -/
theorem Memory.byte?_store16 (m : Memory) (a b : Nat) (v : BitVec 16) :
    (m.store16 a v).byte? b =
      if b = a + 1 then some (v.extractLsb' 8 8) else if b = a then some (v.extractLsb' 0 8) else m.byte? b := by
  simp only [Memory.store16, Memory.storeList, Memory.byte?_store]

theorem Memory.cell16_store16 (m : Memory) (draw a : Nat) (v : BitVec 16) : (m.store16 a v).cell16 draw a = v := by
  have h0 : (m.store16 a v).byte? a = some (v.extractLsb' 0 8) := by
    rw [Memory.byte?_store16, if_neg (by omega), if_pos rfl]
  have h1 : (m.store16 a v).byte? (a + 1) = some (v.extractLsb' 8 8) := by rw [Memory.byte?_store16, if_pos rfl]
  rw [Memory.cell16_of_some h0 h1]
  exact BitVec.extractLsb'_append_extractLsb' (w := 8) (len := 8)

/-- A word store puts lane `i` at `a + i` (R45, R48). -/
theorem Memory.byte?_store32_lane (m : Memory) (a : Nat) (w : Word) {i : Nat} (hi : i < 4) :
    (m.store32 a w).byte? (a + i) = some (lane w i) := by
  have hlane : (bytesOfWord w)[i]? = some (lane w i) := by
    match i, hi with
    | 0, _ | 1, _ | 2, _ | 3, _ => rfl
  rw [Memory.store32, Memory.byte?_storeList, bytesOfWord_length, if_pos (by omega), Nat.add_sub_cancel_left, hlane]

/-- A word store leaves every byte outside the word alone. -/
theorem Memory.byte?_store32_of_outside (m : Memory) {a b : Nat} (w : Word) (h : b < a ∨ a + 4 ≤ b) :
    (m.store32 a w).byte? b = m.byte? b := by
  rw [Memory.store32, Memory.byte?_storeList, bytesOfWord_length, if_neg (by omega)]

theorem Memory.cell32_store32 (m : Memory) (draw a : Nat) (w : Word) : (m.store32 a w).cell32 draw a = w := by
  have hlane {i : Nat} : i < 4 → (m.store32 a w).byte? (a + i) = some (lane w i) := m.byte?_store32_lane a w
  rw [Memory.cell32_of_some (a := a) (hlane (i := 0) (by omega)) (hlane (by omega)) (hlane (by omega))
    (hlane (by omega)), wordOfBytes_lanes]

/-- Settles O48: every byte is written, so no free value is read. -/
theorem writtenCellsRead : Obligations.WrittenCellsRead := by
  intro m a draw b0 b1 b2 b3 h0 h1
  refine ⟨?_, fun h2 h3 => ?_⟩
  · rw [Memory.cell16_of_some h0 h1, append_toNat]; omega
  · rw [Memory.cell32_of_some h0 h1 h2 h3, wordOfBytes_toNat]

/-! ### Transactions on cells -/

/-- A write to anything but a register, when idle (R43 to R46). -/
theorem hostWrite_cell {s : State} {a : HostAddr} {t : Target} (d : Word) (hr : s.rst = false)
    (hb : s.regs.busy = false) (ht : target s.params a = t) (hn : ∀ n, t ≠ .reg n) :
    s.hostWrite a d = s.writeTarget d t := by
  subst ht
  exact hostWrite_idle hr hb (hn .ctrl) (hn .status)

/-- A read after the buffers alone changed, when idle: what now stands at the address (R43 to R46). -/
theorem hostRead_cell {s : State} {a : HostAddr} {t : Target} (m : Memory) (hr : s.rst = false)
    (hb : s.regs.busy = false) (ht : target s.params a = t) :
    ({ s with mem := m } : State).hostRead a = ({ s with mem := m } : State).readTarget t := by
  subst ht
  exact hostRead_idle _ a hr hb

/-- Settles O45: the address leads to cell `j`, which stores and reads bits [15:0]. -/
theorem digitBufStores : Obligations.DigitBufStores := by
  intro s j d hr hb hj
  have ht : target s.params (BitVec.ofNat 20 (0x100 + 4 * j)) = .digit j := by
    rw [target_ofNat _ (by omega) (by omega), targetAt_digit _ hj]
  have hcell (draw : Nat) := s.mem.cell16_store16 draw (0x100 + 4 * j) (d.extractLsb' 0 16)
  refine ⟨s.mem.store16 (0x100 + 4 * j) (d.extractLsb' 0 16), hostWrite_cell d hr hb ht (by simp), ?_, hcell, ?_⟩
  · rw [hostRead_cell _ hr hb ht]
    exact (congrArg (BitVec.zeroExtend 32) (hcell s.draws)).trans (zeroExtend_extractLsb' d (by omega))
  · intro a h0 h1
    rw [Memory.byte?_store16, if_neg h1, if_neg h0]

/-- Settles O46: the address leads to word `w`, whose lane `i` is the byte at offset 4w + i. -/
theorem byteBufStores : Obligations.ByteBufStores := by
  intro s w d hr hb hw
  have hp := params_bounds s.params
  have ht : target s.params (BitVec.ofNat 20 (0x10000 + 4 * w)) = .bytes w := by
    rw [target_ofNat _ (by omega) (by omega), targetAt_bytes _ hw]
  refine ⟨?_, s.mem.store32 (0x10000 + 4 * w) d, hostWrite_cell d hr hb ht (by simp), ?_,
    fun i hi => ?_, fun a ha => ?_⟩
  · rw [hostRead_idle s _ hr hb, ht]
    exact wordOfBytes_toNat ..
  · rw [hostRead_cell _ hr hb ht]
    exact s.mem.cell32_store32 s.draws (0x10000 + 4 * w) d
  · exact s.mem.byte?_store32_lane _ d hi
  · exact s.mem.byte?_store32_of_outside d ha

/-- Settles O47: the address leads to word `i` of entry `k`, which stores and reads all 32 bits. -/
theorem groupBufStores : Obligations.GroupBufStores := by
  intro s k i d hr hb hk hi
  have hp := params_bounds s.params
  have ht : target s.params (BitVec.ofNat 20 (0x40000 + 16 * k + 4 * i)) = .group k i := by
    rw [target_ofNat _ (by omega) (by omega), targetAt_group _ hk hi]
  have hcell (draw : Nat) := s.mem.cell32_store32 draw (0x40000 + 16 * k + 4 * i) d
  refine ⟨s.mem.store32 (0x40000 + 16 * k + 4 * i) d, hostWrite_cell d hr hb ht (by simp), ?_, hcell, fun a ha => ?_⟩
  · rw [hostRead_cell _ hr hb ht]
    exact hcell s.draws
  · exact s.mem.byte?_store32_of_outside d ha

/-! ### Transactions at any address -/

/-- Addresses of one word lead to the same target (R42). -/
theorem target_congr (p : Config.Params) {a b : HostAddr} (h : a.toNat / 4 = b.toNat / 4) :
    target p a = target p b := by
  rw [target, target, show a.toNat - a.toNat % 4 = b.toNat - b.toNat % 4 by omega]

/-- Settles O42: a transaction sees of its address the target only. -/
theorem lowAddressBitsIgnored : Obligations.LowAddressBitsIgnored := by
  intro s a b d h
  have ht := target_congr s.params h
  exact ⟨by rw [State.hostRead, State.hostRead, ht], by rw [State.hostWrite, State.hostWrite, ht]⟩

/-- Settles O43: each of the three statements is one read transaction, and `expect` counts its check. -/
theorem readsHaveNoSideEffect : Obligations.ReadsHaveNoSideEffect := by
  intro s a v
  refine ⟨rfl, fun h => ?_, fun h => ?_, rfl⟩
  · rw [State.perform, if_pos h]; rfl
  · rw [State.perform, if_neg h]; rfl

/-! ### The host's turn with nothing pending -/

section
variable {s : State}

theorem State.tick_of_pending_none (hp : s.pending = none) : s.tick = s := by
  rw [State.tick, hp, Option.map_none, ← hp]

/-- With no command pending the step is the host's (R41, R103). -/
theorem step_of_pending_none (hp : s.pending = none) : step s = .next s.hostTurn := by
  rw [step, State.engineWord, hp]

/-- With nothing pending, the host's turn carries out the next statement, which stays only if it is to be repeated. -/
theorem State.hostTurn_of_pending_none {a : HostAction} {rest : List HostAction} (hp : s.pending = none)
    (hs : s.script = a :: rest) :
    s.hostTurn = { s.perform a with script := if repeats a (s.perform a).r then a :: rest else rest } := by
  rw [State.hostTurn, hs, State.tick_of_pending_none hp]

theorem repeats_of_ne_wait {a : HostAction} (h : a ≠ .wait) (r : Word) : repeats a r = false := by
  cases a with
  | wait => contradiction
  | rd | wr | wrR | expect | rst => rfl

/-- Bit 0 of a read of STATUS is BUSY while `rst` is released (R24, R129). -/
theorem hostRead_status_busy (hr : s.rst = false) : (s.hostRead statusAddr).getLsbD 0 = s.regs.busy := by
  rw [hostRead_status s hr, statusWord_busy]

end

/-- Settles O6: no command is pending, so the step is the host's turn, and only `wait` is ever repeated. -/
theorem idleStepServesHost : Obligations.IdleStepServesHost := by
  refine ⟨fun s hp => ⟨fun hs => ?_, fun a rest hs => ⟨fun ha => ?_, ?_⟩⟩,
    fun s => ⟨fun a v => rfl, fun a => rfl, fun l => rfl⟩⟩
  · rw [step_of_pending_none hp, State.hostTurn, hs]
  · rw [step_of_pending_none hp, State.hostTurn_of_pending_none hp hs, repeats_of_ne_wait ha]; rfl
  · rintro rfl
    have hwait : step s = .next { s.perform (.rd statusAddr) with
        script := if (s.hostRead statusAddr).getLsbD 0 then .wait :: rest else rest } := by
      rw [step_of_pending_none hp, State.hostTurn_of_pending_none hp hs]; rfl
    refine ⟨hwait, fun hr hb => ?_⟩
    rw [hwait, hostRead_status_busy hr, hb]; rfl

end Sys2Proof.Machine

/-! ## The decoder and the encoder
A word below 8 is a row of its own. Every other word is its two fields put together, and MBZ says which reserved class it
is of (R58, R59). -/

namespace Sys2Proof

/-! ### The fields of a word -/

theorem mbzField_append (mbz : BitVec 28) (op : BitVec 4) : mbzField (mbz ++ op) = mbz := by
  apply BitVec.eq_of_toNat_eq
  rw [mbzField_toNat, append_toNat]; omega

theorem opField_append (mbz : BitVec 28) (op : BitVec 4) : opField (mbz ++ op) = op := by
  apply BitVec.eq_of_toNat_eq
  rw [opField_toNat, append_toNat]; omega

theorem mbzField_append_opField (w : Word) : mbzField w ++ opField w = w := by
  apply BitVec.eq_of_toNat_eq
  rw [append_toNat, mbzField_toNat, opField_toNat]; omega

theorem mbzField_eq_zero_iff (w : Word) : mbzField w = 0#28 ↔ w.toNat < 16 := by
  rw [← BitVec.toNat_inj, mbzField_toNat, BitVec.toNat_ofNat]; omega

/-! ### The rows of the opcode map -/

/-- A word of 8 or more is none of the words that have a row of their own. -/
theorem decodeWord_of_eight_le {w : Word} (h : 8 ≤ w.toNat) :
    decodeWord w =
      if mbzField w = 0#28 then .badOpReservedOpcode (opField w) else .badOpReservedBits (mbzField w) (opField w) := by
  have hne : ∀ n < 8, w ≠ BitVec.ofNat 32 n := by
    rintro n hn rfl
    rw [BitVec.toNat_ofNat] at h; omega
  rw [decodeWord, if_neg (hne 0 (by decide)), if_neg (hne 1 (by decide)), if_neg (hne 2 (by decide)),
    if_neg (hne 3 (by decide)), if_neg (hne 4 (by decide)), if_neg (hne 5 (by decide)), if_neg (hne 6 (by decide)),
    if_neg (hne 7 (by decide))]

theorem decodeWord_reservedOpcode {w : Word} (h8 : 8 ≤ w.toNat) (h16 : w.toNat < 16) :
    decodeWord w = .badOpReservedOpcode (opField w) := by
  rw [decodeWord_of_eight_le h8, if_pos ((mbzField_eq_zero_iff w).2 h16)]

theorem decodeWord_reservedBits {w : Word} (h : 16 ≤ w.toNat) :
    decodeWord w = .badOpReservedBits (mbzField w) (opField w) := by
  rw [decodeWord_of_eight_le (by omega), if_neg (mt (mbzField_eq_zero_iff w).1 (by omega))]

/-- Settles O4: each word is decoded from its four bytes. -/
theorem writtenWordsDecode : Obligations.WrittenWordsDecode := by
  refine ⟨?_, ?_, ?_, ?_, ?_, ?_⟩ <;> decide

/-- Settles O3: the rows of one word each, then the two reserved classes with their fields as numbers. -/
theorem decodeFollowsOpcodeMap : Obligations.DecodeFollowsOpcodeMap := by
  intro w
  have row {n : Nat} {i : Instr} (hi : decodeWord (BitVec.ofNat 32 n) = i) (hw : w.toNat = n) : decodeWord w = i := by
    rw [← hi, ← hw, BitVec.ofNat_toNat, BitVec.setWidth_eq]
  have hop : BitVec.ofNat 4 (w.toNat % 16) = opField w := by
    rw [← opField_toNat, BitVec.ofNat_toNat, BitVec.setWidth_eq]
  have hmbz : BitVec.ofNat 28 (w.toNat / 16) = mbzField w := by
    rw [← mbzField_toNat, BitVec.ofNat_toNat, BitVec.setWidth_eq]
  rw [hop, hmbz]
  exact ⟨row rfl, row rfl, row rfl, row rfl, row rfl, row rfl, row rfl, row rfl,
    fun h8 h16 => decodeWord_reservedOpcode (by omega) (by omega), fun h => decodeWord_reservedBits (by omega)⟩

/-! ### Encoding what was decoded -/

/-- Settles O2: below 8 by the rows, above by the fields, which satisfy the condition of their class and make the word. -/
theorem encodeOfDecode : Obligations.EncodeOfDecode := by
  intro w
  rcases lt_or_ge w.toNat 8 with h8 | h8
  · have rows : ∀ n < 8, (decodeWord (BitVec.ofNat 32 n)).wellFormed = true ∧
        encode (decodeWord (BitVec.ofNat 32 n)) = BitVec.ofNat 32 n := by decide
    have hw := rows w.toNat h8
    rwa [BitVec.ofNat_toNat, BitVec.setWidth_eq] at hw
  rcases lt_or_ge w.toNat 16 with h16 | h16
  · rw [decodeWord_reservedOpcode h8 h16]
    refine ⟨decide_eq_true ?_, ?_⟩
    · rw [opField_toNat]; omega
    · rw [encode, ← (mbzField_eq_zero_iff w).2 h16, mbzField_append_opField]
  · rw [decodeWord_reservedBits h16]
    exact ⟨decide_eq_true (mt (mbzField_eq_zero_iff w).1 (by omega)), mbzField_append_opField w⟩

/-! ### Decoding what was encoded -/

theorem decodeWord_encode {i : Instr} (h : i.wellFormed = true) : decodeWord (encode i) = i := by
  cases i with
  | nop | tobase | frombase | encblk | decblk | xlate | encseq | decseq => rfl
  | badOpReservedOpcode op =>
    have hop : 8 ≤ op.toNat := of_decide_eq_true h
    have hw : (encode (.badOpReservedOpcode op)).toNat = op.toNat := by rw [encode, append_toNat]; simp
    rw [decodeWord_reservedOpcode (by omega) (by omega), encode, opField_append]
  | badOpReservedBits mbz op =>
    have hmbz : mbz ≠ 0#28 := of_decide_eq_true h
    have hw : 16 ≤ (encode (.badOpReservedBits mbz op)).toNat := by
      rwa [← not_lt, ← mbzField_eq_zero_iff, encode, mbzField_append]
    rw [decodeWord_reservedBits hw, encode, mbzField_append, opField_append]

/-- The opcode table's number of a word is the word itself (R61). -/
theorem decodeTableWord_toNat (w : Word) : decodeTableWord 32 w.toNat = some (decodeWord w) := by
  rw [decodeTableWord, Nat.mod_eq_of_lt w.isLt, BitVec.ofNat_toNat, BitVec.setWidth_eq, decode_bytesOfWord]

/-- Settles O1: bytes and table numbers decode as their word does, and the word of a command decodes to it. -/
theorem decodeOfEncode : Obligations.DecodeOfEncode := by
  intro i h
  rw [decode_bytesOfWord, decodeTableWord_toNat, decodeWord_encode h]
  exact ⟨rfl, rfl, rfl⟩

end Sys2Proof

/-! ## The Digit Converter: its two functions and its two commands (40_digit_converter.md) -/

namespace Sys2Proof.Machine

/-! ### The digit sequence of a number -/

section
variable {b : Nat}

theorem toBase_eq_nil_iff (hb : 2 ≤ b) (n : Nat) : toBase b n = [] ↔ n = 0 := by
  rw [← List.length_eq_zero_iff, ← Nat.le_zero, toBase_length_le_iff hb, pow_zero, Nat.lt_one_iff]

/-- No leading zero digit: the first digit is the number itself when there is only one, else the first of `n / b`. -/
theorem toBase_head?_ne_zero (hb : 2 ≤ b) (n : Nat) : (toBase b n).head? ≠ some 0 := by
  refine toBase_induction hb (P := fun _ ds => ds.head? ≠ some 0) (by simp) (fun n hn ih => ?_) n
  rcases Nat.eq_zero_or_pos (n / b) with h0 | hpos
  · have hlt : n < b := (Nat.div_eq_zero_iff_lt (by omega)).1 h0
    rw [h0, toBase_zero, List.nil_append, List.head?_singleton, Nat.mod_eq_of_lt hlt]
    simpa using hn.ne'
  · rwa [List.head?_append_of_ne_nil _ (mt (toBase_eq_nil_iff hb _).1 hpos.ne')]

/-- A number has as many digits as a sequence with no leading zero that represents it, so the sequences are one. -/
theorem toBase_fromBase_cons (hb : 2 ≤ b) {d : Nat} {ds : List Nat} (h : ∀ x ∈ d :: ds, x < b) (hd : d ≠ 0) :
    toBase b (fromBase b (d :: ds)) = d :: ds := by
  have hle : (toBase b (fromBase b (d :: ds))).length ≤ (d :: ds).length :=
    (toBase_length_le_iff hb _ _).2 (fromBase_lt h)
  have hge : ¬ (toBase b (fromBase b (d :: ds))).length ≤ ds.length := by
    rw [toBase_length_le_iff hb, fromBase_cons, not_lt]
    exact le_add_right (Nat.le_mul_of_pos_left _ (Nat.pos_of_ne_zero hd))
  rw [List.length_cons] at hle
  exact fromBase_injective (by rw [List.length_cons]; omega) (toBase_digit_lt hb _) h (fromBase_toBase hb _)

/-- The digits of the number a sequence represents are the sequence without its leading zeros (R71). -/
theorem toBase_fromBase (hb : 2 ≤ b) {ds : List Nat} (h : ∀ d ∈ ds, d < b) :
    toBase b (fromBase b ds) = ds.drop (ds.takeWhile (fun d => d == 0)).length := by
  induction ds with
  | nil => simp
  | cons d ds ih =>
    by_cases hd : d = 0
    · subst hd
      simpa [fromBase_cons] using ih fun x hx => h x (List.mem_cons_of_mem _ hx)
    · simpa [hd] using toBase_fromBase_cons hb h hd

end

/-- Settles O15: the length is the least because a number has at most `k` digits exactly when it is below `b ^ k`. -/
theorem toBaseDigits : Obligations.ToBaseDigits := fun _ hb =>
  ⟨toBase_zero _, fun n hn => ⟨toBase_of_pos hb hn, toBase_digit_lt hb n, toBase_head?_ne_zero hb n,
    (toBase_length_le_iff hb n _).1 le_rfl, fun k => (toBase_length_le_iff hb n k).2⟩⟩

/-- Settles O16, by the laws of `fromBase`. -/
theorem fromBaseBigEndian : Obligations.FromBaseBigEndian := fun b =>
  ⟨fromBase_nil b, fromBase_concat b, fromBase_replicate_zero b⟩

/-- Settles O17: the first half is a law of `toBase`, the second goes along the leading zeros. -/
theorem convertersNearInverse : Obligations.ConvertersNearInverse := fun _ hb =>
  ⟨fromBase_toBase hb, fun _ => toBase_fromBase hb⟩

/-! ### TOBASE -/

theorem Regs.val_lt (g : Regs) : g.val < 2 ^ 64 := by
  have hlo := g.valLo.isLt
  have hhi := g.valHi.isLt
  rw [Regs.val]; omega

/-- DIGIT_BUF is large enough for the digits of VAL in every radix (R6, R74). -/
theorem toBase_val_length_le {b : Nat} (hb : 2 ≤ b) (g : Regs) : (toBase b g.val).length ≤ 64 :=
  (toBase_length_le_iff hb _ _).2 (g.val_lt.trans_le (Nat.pow_le_pow_left hb 64))

theorem tobaseOutcome_baseRange {o : Snapshot} (hb : o.regs.base.toNat < 2) :
    tobaseOutcome o = .error (.plain .baseRange) := if_pos hb

theorem tobaseOutcome_ok {o : Snapshot} (hb : 2 ≤ o.regs.base.toNat) :
    tobaseOutcome o = .ok (toBase o.regs.base.toNat o.regs.val) := if_neg (by omega)

/-- A cell among those written with digits reads as its digit. -/
theorem Memory.cell16_storeDigits (m : Memory) {ds : List (BitVec 16)} {j : Nat} {v : BitVec 16} (h : ds[j]? = some v)
    (draw : Nat) : (m.storeDigits 0 ds).cell16 draw (digitAddr j) = v := by
  have hj : j < ds.length := (List.getElem?_eq_some_iff.1 h).1
  have byte {i : Nat} (hi : i < 2) :
      (m.storeDigits 0 ds).byte? (digitAddr j + i) = some (v.extractLsb' (8 * i) 8) := by
    rw [Memory.byte?_storeDigits, if_pos (by simp only [digitAddr]; omega),
      show (digitAddr j + i - digitAddr 0) / 4 = j by simp only [digitAddr]; omega, h,
      show (digitAddr j + i) % 4 = i by simp only [digitAddr]; omega, Option.map_some]
  exact Memory.cell16_of_bytes (byte Nat.two_pos) (byte Nat.one_lt_two) draw

theorem digitCells_getElem? (ds : List Nat) {j : Nat} (hj : j < 64) :
    (digitCells ds)[j]? = some (BitVec.ofNat 16 (ds.getD j 0)) := by
  simp [digitCells, hj]

/-- The cells TOBASE writes read as the digits, then zeros (R74). -/
theorem cell16_storeDigits_digitCells (m : Memory) {ds : List Nat} (h : ∀ d ∈ ds, d < 2 ^ 16) {j : Nat}
    (hj : j < 64) (draw : Nat) : ((m.storeDigits 0 (digitCells ds)).cell16 draw (digitAddr j)).toNat = ds.getD j 0 := by
  rw [Memory.cell16_storeDigits m (digitCells_getElem? ds hj), BitVec.toNat_ofNat]
  refine Nat.mod_eq_of_lt ?_
  rcases lt_or_ge j ds.length with hlt | hge
  · rw [List.getD_eq_getElem _ _ hlt]; exact h _ (List.getElem_mem hlt)
  · rw [List.getD_eq_default _ _ hge]; exact Nat.two_pow_pos 16

/-- Writing all the cells of DIGIT_BUF leaves every byte outside them alone. -/
theorem byte?_storeDigits_digitCells_of_outside (m : Memory) (ds : List Nat) {a : Nat}
    (h : ∀ j, j < 64 → a ≠ digitAddr j ∧ a ≠ digitAddr j + 1) :
    (m.storeDigits 0 (digitCells ds)).byte? a = m.byte? a := by
  rw [Memory.byte?_storeDigits, if_neg]
  rw [digitCells_length]
  simp only [digitAddr, Config.maxDigits] at h ⊢
  have := h ((a - 0x100) / 4)
  omega

/-- Settles O18: VAL has at most 64 digits, each below BASE, so that NDIG and the 16-bit cells hold them whole. -/
theorem tobaseResult : Obligations.TobaseResult := by
  refine ⟨by decide, fun s => ⟨fun hb => ?_, fun hb => ?_⟩⟩
  · rw [exec_tobase, tobaseOutcome_baseRange hb, State.commit_error]; rfl
  have hlen := toBase_val_length_le hb s.operands.regs
  have hlt : ∀ d ∈ toBase s.operands.regs.base.toNat s.operands.regs.val, d < 2 ^ 16 := fun d hd =>
    (toBase_digit_lt hb _ d hd).trans s.operands.regs.base.isLt
  refine ⟨_, _, by rw [exec_tobase, tobaseOutcome_ok hb, State.commit_writeDigits], ?_, hlen,
    fun _ hj => cell16_storeDigits_digitCells _ hlt hj, fun _ => byte?_storeDigits_digitCells_of_outside _ _⟩
  rw [BitVec.toNat_ofNat]
  exact Nat.mod_eq_of_lt (by omega)

/-! ### FROMBASE -/

section
variable {o : Snapshot} {draw : Nat}

theorem frombaseOutcome_baseRange (hb : o.regs.base.toNat < 2) :
    frombaseOutcome o draw = .error (.plain .baseRange) := if_pos hb

theorem frombaseOutcome_digitCount (hb : 2 ≤ o.regs.base.toNat) (hn : 64 < o.regs.ndig.toNat) :
    frombaseOutcome o draw = .error (.plain .digitCount) := by
  rw [frombaseOutcome, if_neg (by omega), if_pos hn]

/-- The lowest digit that is not below BASE is the one reported (R75). -/
theorem frombaseOutcome_digitRange (hb : 2 ≤ o.regs.base.toNat) (hn : o.regs.ndig.toNat ≤ 64) {j : Nat}
    (hj : j < o.regs.ndig.toNat) (hbad : o.regs.base.toNat ≤ (o.digits draw).getD j 0)
    (hlow : ∀ i, i < j → (o.digits draw).getD i 0 < o.regs.base.toNat) :
    frombaseOutcome o draw = .error (.atPos .digitRange j) := by
  have hlen : (o.digits draw).length = o.regs.ndig.toNat := by simp [Snapshot.digits]
  have hfind : (o.digits draw).findIdx? (fun d => decide (o.regs.base.toNat ≤ d)) = some j := by
    refine findIdx?_eq_some (hlen ▸ hj) ?_ fun i hi => ?_
    · rw [List.getD_eq_getElem _ _ (hlen ▸ hj)] at hbad
      exact decide_eq_true hbad
    · have := hlow i hi
      rw [List.getD_eq_getElem _ _ (by omega)] at this
      exact decide_eq_false (not_le.2 this)
  rw [frombaseOutcome, if_neg (by omega), if_neg (not_lt.2 hn), hfind]

/-- With every digit below BASE the value decides (R75). -/
theorem frombaseOutcome_of_digits (hb : 2 ≤ o.regs.base.toNat) (hn : o.regs.ndig.toNat ≤ 64)
    (hd : ∀ d ∈ o.digits draw, d < o.regs.base.toNat) :
    frombaseOutcome o draw =
      if 2 ^ 64 ≤ fromBase o.regs.base.toNat (o.digits draw) then .error (.plain .valueOverflow)
      else .ok (fromBase o.regs.base.toNat (o.digits draw)) := by
  have hfind : (o.digits draw).findIdx? (fun d => decide (o.regs.base.toNat ≤ d)) = none :=
    findIdx?_eq_none fun d hm => decide_eq_false (not_le.2 (hd d hm))
  rw [frombaseOutcome, if_neg (by omega), if_neg (not_lt.2 hn), hfind]

end

/-- VAL_HI and VAL_LO as FROMBASE writes them hold the value whole (R35). -/
theorem toNat_halves {v : Nat} (h : v < 2 ^ 64) :
    (BitVec.ofNat 32 (v / 2 ^ 32)).toNat * 2 ^ 32 + (BitVec.ofNat 32 v).toNat = v := by
  rw [BitVec.toNat_ofNat, BitVec.toNat_ofNat]; omega

/-- Settles O19: each clause is one outcome of FROMBASE, in the order of its checks. -/
theorem frombaseResult : Obligations.FrombaseResult := by
  refine ⟨by decide, fun s => ⟨fun hb => ?_, fun hb hn => ?_, fun hb hn j hj hbad hlow => ?_, fun hb hn hd hv => ?_,
    fun hb hn hd hv => ?_⟩⟩ <;> rw [exec_frombase]
  · rw [frombaseOutcome_baseRange hb, State.commit_error]; rfl
  · rw [frombaseOutcome_digitCount hb hn, State.commit_error]; rfl
  · rw [frombaseOutcome_digitRange hb hn hj hbad hlow, State.commit_error]; rfl
  · rw [(frombaseOutcome_of_digits hb hn hd).trans (if_pos hv), State.commit_error]; rfl
  · rw [(frombaseOutcome_of_digits hb hn hd).trans (if_neg (not_le.2 hv)), State.commit_writeVal]
    exact ⟨_, _, rfl, toNat_halves hv⟩

end Sys2Proof.Machine

/-! ## The Block Codec: its two functions, its two commands and the partition
The decoder inverts the encoder: on a group of 1 to 3 indices it answers a block exactly when that block's tuple is the
group (`decodeIndices_eq_ok_iff_encodeBlock`), from which the round trip and the exact image follow
(41_block_codec.md, 43_sequence.md R95). -/

namespace Sys2Proof.Machine

/-! ### Entries of a list, read with a default -/

theorem getD_take {α : Type} (l : List α) (d : α) {n j : Nat} (hj : j < n) : (l.take n).getD j d = l.getD j d := by
  rw [List.getD_eq_getElem?_getD, List.getElem?_take_of_lt hj, List.getD_eq_getElem?_getD]

theorem forall_mem_iff_getD {α : Type} {P : α → Prop} {l : List α} (d : α) :
    (∀ x ∈ l, P x) ↔ ∀ j, j < l.length → P (l.getD j d) := by
  rw [List.forall_mem_iff_getElem]
  exact forall₂_congr fun j hj => by rw [List.getD_eq_getElem _ _ hj]

theorem findIdx?_eq_some_of_getD {α : Type} {p : α → Bool} {l : List α} (d : α) {j : Nat} (hj : j < l.length)
    (h : p (l.getD j d) = true) (hlow : ∀ i, i < j → p (l.getD i d) = false) : l.findIdx? p = some j := by
  refine findIdx?_eq_some hj ?_ fun i hi => ?_
  · rwa [List.getD_eq_getElem _ _ hj] at h
  · have := hlow i hi
    rwa [List.getD_eq_getElem _ _ (hi.trans hj)] at this

/-! ### Block values and digits -/

/-- The block value as R76 writes it, a sum over the bytes. -/
theorem blockValue_eq_sum (bs : List Byte) :
    blockValue bs = ((List.range bs.length).map (fun i => (bs.getD i 0#8).toNat * 256 ^ i)).sum := by
  induction bs with
  | nil => rfl
  | cons b bs ih =>
    rw [blockValue_cons, ih, List.length_cons, List.range_succ_eq_map, List.map_cons, List.sum_cons, List.map_map,
      ← List.sum_map_mul_left]
    simp only [Function.comp_def, List.getD_cons_zero, List.getD_cons_succ, pow_zero, mul_one, Nat.succ_eq_add_one,
      pow_succ]
    exact congrArg _ (congrArg List.sum (List.map_congr_left fun i _ => by ring))

/-- Settles O20, from the value of a block by its first byte and the bound on values of digits. -/
theorem blockValueLittleEndian : Obligations.BlockValueLittleEndian := fun bs =>
  ⟨blockValue_eq_sum bs, rfl, blockValue_lt bs⟩

/-- Settles O21: a block of n bytes is below 256^n, which is at most 1626^canonLen n. -/
theorem paddingNeverTruncates : Obligations.PaddingNeverTruncates := fun _ => toBase_blockValue_length

/-- The digits of a block are the only ones of its canonical length and its value. -/
theorem eq_blockDigits {bs : List Byte} (h1 : 1 ≤ bs.length) (h4 : bs.length ≤ 4) {ds : List Nat}
    (hd : ∀ d ∈ ds, d < 1626) (hl : ds.length = canonLen bs.length) (hv : fromBase 1626 ds = blockValue bs) :
    ds = blockDigits bs :=
  fromBase_injective (hl.trans (blockDigits_length h1 h4).symm) hd (blockDigits_lt bs)
    (hv.trans (fromBase_blockDigits bs).symm)

/-! ### encodeBlock -/

/-- Settles O22: the digits are those of the canonical length, and the last of three is moved to bank B. -/
theorem encodeBlockDigits : Obligations.EncodeBlockDigits := by
  refine fun bs => ⟨encodeBlock_error, fun h1 h4 => ⟨blockDigits bs, blockDigits_lt bs, fromBase_blockDigits bs,
    (blockDigits_length h1 h4).trans (canonLen_eq h1 h4), ?_⟩⟩
  rw [encodeBlock_ok h1 h4]
  by_cases h3 : bs.length = 3
  · obtain ⟨a, b, c, ed, et⟩ := blockTuple_three h3
    rw [if_pos h3, ed, et]; rfl
  · rw [if_neg h3, blockTuple_of_ne_three h3]

theorem blockTuple_length_bounds {bs : List Byte} (h1 : 1 ≤ bs.length) (h4 : bs.length ≤ 4) :
    1 ≤ (blockTuple bs).length ∧ (blockTuple bs).length ≤ 3 := by
  rw [blockTuple_length h1 h4, canonLen_eq h1 h4]; split <;> omega

/-- The first index of a tuple, at its place in the block value, is bounded by the bound on the value. -/
theorem head_blockTuple_mul_lt {bs : List Byte} (h1 : 1 ≤ bs.length) (h4 : bs.length ≤ 4) :
    (blockTuple bs).getD 0 0 * 1626 ^ (canonLen bs.length - 1) < 256 ^ bs.length := by
  have hhead : (blockTuple bs).getD 0 0 = (blockDigits bs).getD 0 0 := by
    rw [blockTuple_eq]; split <;> simp [List.getD_eq_getElem?_getD]
  rw [hhead, ← blockDigits_length h1 h4]
  have hv := fromBase_blockDigits bs
  match e : blockDigits bs with
  | [] => simp
  | d :: ds =>
    rw [e, fromBase_cons] at hv
    have hlt := blockValue_lt bs
    rw [List.getD_cons_zero, List.length_cons, Nat.add_sub_cancel]
    omega

/-- Settles O23: the first index is bounded through the block value, and the all-0xFF blocks are computed. -/
theorem encodeBlockProperties : Obligations.EncodeBlockProperties := by
  refine ⟨fun bs h1 h4 => ?_, by decide, by decide, by decide, by decide⟩
  have hlen := blockTuple_length h1 h4
  have hhead := head_blockTuple_mul_lt h1 h4
  refine ⟨_, encodeBlock_ok h1 h4, fun h => ?_, fun h => ?_, fun h => ?_, blockTuple_lt bs, fun h => ?_, fun h => ?_,
    fun h => ?_, fun h => ?_, fun h => ?_, fun h => ?_⟩
  · rw [hlen, h]; rfl
  · rw [hlen, h]; rfl
  · rcases h with h | h <;> rw [hlen, h] <;> rfl
  · obtain ⟨a, b, c, ed, et⟩ := blockTuple_three h
    have hd := blockDigits_lt bs
    simp only [ed, List.forall_mem_cons] at hd
    rw [et]
    exact ⟨Nat.le_add_left _ _, hd.1, hd.2.1⟩
  · rw [blockTuple_of_ne_three h]; exact blockDigits_lt bs
  all_goals
    rw [h] at hhead
    simp only [canonLen, Nat.reduceSub, Nat.reducePow] at hhead
    omega

/-! ### Groups and their digits -/

/-- The positions of a group that must be in bank A: its first two indices, or all (R82 step 4). -/
theorem plainPositions_eq_take (ix : List Nat) :
    plainPositions ix = ix.take (if ix.length = 3 then 2 else ix.length) := by
  rw [plainPositions]; split <;> simp

theorem groupIndices_length {c : Nat} {s : List CodecSlot} (h : c ≤ s.length) :
    ((s.take c).map Prod.fst).length = c := by
  rw [List.length_map, List.length_take, Nat.min_eq_left h]

theorem groupIndices_getD {c : Nat} (s : List CodecSlot) {j : Nat} (hj : j < c) :
    ((s.take c).map Prod.fst).getD j 0 = (s.getD j (0, false)).1 := by
  rw [← getD_take s (0, false) hj]
  exact List.getD_map _ (0, false) Prod.fst

theorem plainPositions_length (ix : List Nat) :
    (plainPositions ix).length = if ix.length = 3 then 2 else ix.length := by
  rw [plainPositions_eq_take, List.length_take]; split <;> omega

theorem plainPositions_getD (ix : List Nat) {j : Nat} (hj : j < (plainPositions ix).length) :
    (plainPositions ix).getD j 0 = ix.getD j 0 := by
  rw [plainPositions_length] at hj
  rw [plainPositions_eq_take, getD_take _ _ hj]

@[simp] theorem groupDigits_length (ix : List Nat) : (groupDigits ix).length = ix.length := by
  rw [groupDigits]; split <;> simp

theorem hasOffset_three (a b c : Nat) : hasOffset [a, b, c] = decide (1626 ≤ c) := rfl

theorem hasOffset_of_lt {a b c : Nat} (hc : c < 1626) : hasOffset [a, b, c] = false := by
  rw [hasOffset_three]
  exact decide_eq_false (not_le.2 hc)

/-- The groups with the disambiguation offset (R82 step 3). -/
theorem hasOffset_iff (ix : List Nat) : hasOffset ix = true ↔ ∃ a b c, ix = [a, b, c + 1626] := by
  refine ⟨fun h => ?_, ?_⟩
  · rw [hasOffset, Bool.and_eq_true, decide_eq_true_eq, decide_eq_true_eq] at h
    obtain ⟨a, b, c, rfl⟩ := list_of_length_three h.1
    have hc : 1626 ≤ c := h.2
    exact ⟨a, b, c - 1626, by rw [Nat.sub_add_cancel hc]⟩
  · rintro ⟨a, b, c, rfl⟩
    rw [hasOffset_three]
    exact decide_eq_true (Nat.le_add_left _ _)

theorem hasOffset_offset (a b c : Nat) : hasOffset [a, b, c + 1626] = true := (hasOffset_iff _).2 ⟨a, b, c, rfl⟩

theorem outLength_offset (a b c : Nat) : outLength [a, b, c + 1626] = 3 := by
  rw [outLength, hasOffset_offset]; rfl

theorem groupDigits_offset (a b c : Nat) : groupDigits [a, b, c + 1626] = [a, b, c] := by
  rw [groupDigits, hasOffset_offset]
  show [a, b, c + 1626 - 1626] = [a, b, c]
  rw [Nat.add_sub_cancel]

theorem outLength_plain {ix : List Nat} (h : hasOffset ix = false) :
    outLength ix = if ix.length = 3 then 4 else ix.length := by
  rw [outLength, h]; rfl

theorem groupDigits_plain {ix : List Nat} (h : hasOffset ix = false) : groupDigits ix = ix := by
  rw [groupDigits, h]; rfl

/-- A plain position holds the digit itself, so a group whose digits are below the radix has no bank-B index there. -/
theorem plainPositions_lt {ix : List Nat} (hd : ∀ d ∈ groupDigits ix, d < 1626) :
    ∀ i ∈ plainPositions ix, i < 1626 := by
  rw [plainPositions_eq_take]
  cases h : hasOffset ix with
  | false =>
    rw [groupDigits_plain h] at hd
    exact fun i hi => hd i (List.mem_of_mem_take hi)
  | true =>
    obtain ⟨a, b, c, rfl⟩ := (hasOffset_iff ix).1 h
    rw [groupDigits_offset] at hd
    exact fun i hi => hd i (List.mem_of_mem_take (l := [a, b, c]) (i := 2) hi)

/-- The digits of a group are below the radix when the plain positions are in bank A and the last of three is a word
index. -/
theorem groupDigits_lt {ix : List Nat} (hp : ∀ i ∈ plainPositions ix, i < 1626)
    (hlast : ix.length = 3 → ix.getD 2 0 < 3252) : ∀ d ∈ groupDigits ix, d < 1626 := by
  by_cases hl : ix.length = 3
  · obtain ⟨a, b, c, rfl⟩ := list_of_length_three hl
    have hc : c < 3252 := hlast rfl
    have hab : a < 1626 ∧ b < 1626 := by simpa [plainPositions] using hp
    rcases lt_or_ge c 1626 with hlt | hge
    · rw [groupDigits_plain (hasOffset_of_lt hlt)]
      simpa using ⟨hab.1, hab.2, hlt⟩
    · obtain ⟨d, rfl⟩ := Nat.exists_eq_add_of_le' hge
      rw [groupDigits_offset]
      simpa using ⟨hab.1, hab.2, by omega⟩
  · rw [plainPositions, if_neg hl] at hp
    rwa [groupDigits_plain (by rw [hasOffset, decide_eq_false hl, Bool.false_and])]

/-- The digits of a group, slot by slot. -/
theorem groupDigits_eq_map (ix : List Nat) :
    groupDigits ix =
      (List.range ix.length).map (fun j => if hasOffset ix ∧ j = 2 then ix.getD j 0 - 1626 else ix.getD j 0) := by
  refine List.ext_getElem (by simp) fun j hj _ => ?_
  rw [groupDigits_length] at hj
  rw [List.getElem_map, List.getElem_range]
  by_cases h : hasOffset ix = true
  · simp [groupDigits, h, List.getElem_modify, hj, eq_comm]
  · simp [groupDigits, h, hj]

/-! ### Decoding inverts encoding -/

/-- A group decodes to a block exactly when its digits are below the radix and the block is the one of their value at
the output length. -/
theorem decodeIndices_eq_ok_iff {ix : List Nat} {bs : List Byte} :
    decodeIndices ix = .ok bs ↔
      (∀ d ∈ groupDigits ix, d < 1626) ∧ bs.length = outLength ix ∧
        blockValue bs = fromBase 1626 (groupDigits ix) := by
  have hdigits : decodeIndices ix = .ok bs → ∀ d ∈ groupDigits ix, d < 1626 := by
    intro h d hd
    unfold decodeIndices at h
    split at h
    · cases h
    · split at h
      · cases h
      · next hnone => simpa using List.findIdx?_eq_none_iff.1 hnone d hd
  by_cases hd : ∀ d ∈ groupDigits ix, d < 1626
  swap
  · exact iff_of_false (mt hdigits hd) (mt And.left hd)
  obtain ⟨hover, hfits⟩ := decodeIndices_of_digits (plainPositions_lt hd) hd
  rcases le_or_gt (256 ^ outLength ix) (fromBase 1626 (groupDigits ix)) with hle | hlt
  · rw [hover hle]
    refine iff_of_false (by simp) fun ⟨_, hl, hv⟩ => ?_
    have := blockValue_lt bs
    rw [hl, hv] at this
    omega
  · obtain ⟨out, hout, hl, hv⟩ := hfits hlt
    rw [hout, Except.ok.injEq]
    exact ⟨fun e => e ▸ ⟨hd, hl, hv⟩, fun ⟨_, hl', hv'⟩ => blockValue_injective (hl.trans hl'.symm) (hv.trans hv'.symm)⟩

/-- The blocks whose tuple is a group without the offset. -/
theorem encodeBlock_eq_ok_iff_plain {ix : List Nat} (h : hasOffset ix = false) (h1 : 1 ≤ ix.length) (h3 : ix.length ≤ 3)
    {bs : List Byte} :
    encodeBlock bs = .ok ix ↔
      (∀ d ∈ ix, d < 1626) ∧ bs.length = (if ix.length = 3 then 4 else ix.length) ∧
        blockValue bs = fromBase 1626 ix := by
  rw [encodeBlock_eq_ok_iff]
  constructor
  · rintro ⟨⟨hb1, hb4⟩, rfl⟩
    have hne : bs.length ≠ 3 := by
      intro hb
      obtain ⟨a, b, c, _, et⟩ := blockTuple_three hb
      rw [et, hasOffset_offset] at h
      cases h
    rw [blockTuple_of_ne_three hne, blockDigits_length hb1 hb4, canonLen_eq hb1 hb4]
    exact ⟨blockDigits_lt bs, by split_ifs <;> omega, (fromBase_blockDigits bs).symm⟩
  · rintro ⟨hd, hl, hv⟩
    obtain ⟨hne, hb1, hb4⟩ : bs.length ≠ 3 ∧ 1 ≤ bs.length ∧ bs.length ≤ 4 := by split at hl <;> omega
    have hix : ix.length = canonLen bs.length := by
      rw [canonLen_eq hb1 hb4]; split at hl <;> split <;> omega
    exact ⟨⟨hb1, hb4⟩, (blockTuple_of_ne_three hne).trans (eq_blockDigits hb1 hb4 hd hix hv.symm).symm⟩

/-- The blocks whose tuple is a group with the offset. -/
theorem encodeBlock_eq_ok_iff_offset {a b c : Nat} {bs : List Byte} :
    encodeBlock bs = .ok [a, b, c + 1626] ↔
      (∀ d ∈ [a, b, c], d < 1626) ∧ bs.length = 3 ∧ blockValue bs = fromBase 1626 [a, b, c] := by
  rw [encodeBlock_eq_ok_iff]
  constructor
  · rintro ⟨-, et⟩
    have hl : bs.length = 3 := by
      by_contra hne
      have := blockDigits_lt bs (c + 1626) (by rw [← blockTuple_of_ne_three hne, et]; simp)
      omega
    obtain ⟨a', b', c', ed, et'⟩ := blockTuple_three hl
    simp only [et', List.cons.injEq, Nat.add_right_cancel_iff, and_true] at et
    obtain ⟨rfl, rfl, rfl⟩ := et
    rw [← ed]
    exact ⟨blockDigits_lt bs, hl, (fromBase_blockDigits bs).symm⟩
  · rintro ⟨hd, hl, hv⟩
    have hdig := eq_blockDigits (by omega) (by omega) hd (by rw [hl]; rfl) hv.symm
    obtain ⟨a', b', c', ed, et⟩ := blockTuple_three hl
    rw [ed] at hdig
    cases hdig
    exact ⟨by omega, et⟩

/-- The decoder inverts the encoder on groups of 1 to 3 indices. -/
theorem decodeIndices_eq_ok_iff_encodeBlock {ix : List Nat} (h1 : 1 ≤ ix.length) (h3 : ix.length ≤ 3) {bs : List Byte} :
    decodeIndices ix = .ok bs ↔ encodeBlock bs = .ok ix := by
  rw [decodeIndices_eq_ok_iff]
  cases h : hasOffset ix with
  | false => rw [groupDigits_plain h, outLength_plain h, encodeBlock_eq_ok_iff_plain h h1 h3]
  | true =>
    obtain ⟨a, b, c, rfl⟩ := (hasOffset_iff ix).1 h
    rw [groupDigits_offset, outLength_offset, encodeBlock_eq_ok_iff_offset]

section
variable {c : Nat} {s : List CodecSlot}

theorem decodeBlock_groupLen (hc : c = 0 ∨ 3 < c) : decodeBlock c s = .error ⟨.groupLen, 0#16, 0#2⟩ := if_pos hc

/-- The lowest slot that was not recognised is the one reported (R82 step 2). -/
theorem decodeBlock_unrecognized (h1 : 1 ≤ c) (h3 : c ≤ 3) (hs : c ≤ s.length) {j : Nat} (hj : j < c)
    (hbad : (s.getD j (0, false)).2 = false) (hlow : ∀ i, i < j → (s.getD i (0, false)).2 = true) :
    decodeBlock c s = .error ⟨.unrecognized, 0#16, BitVec.ofNat 2 j⟩ := by
  have hfind : (s.take c).findIdx? (fun x => !x.2) = some j := by
    refine findIdx?_eq_some_of_getD (0, false) (by rw [List.length_take]; omega) ?_ fun i hi => ?_
    · rw [getD_take _ _ hj, hbad]; rfl
    · rw [getD_take _ _ (hi.trans hj), hlow i hi]; rfl
  rw [decodeBlock, if_neg (by simp only [Config.groupMax]; omega), hfind]
  rfl

/-- With every slot recognised the indices decide (R82). -/
theorem decodeBlock_recognized (h1 : 1 ≤ c) (h3 : c ≤ 3) (hr : ∀ x ∈ s.take c, x.2 = true) :
    decodeBlock c s = decodeIndices ((s.take c).map Prod.fst) := by
  have hfind : (s.take c).findIdx? (fun x => !x.2) = none :=
    findIdx?_eq_none fun x hx => by rw [hr x hx]; rfl
  rw [decodeBlock, if_neg (by simp only [Config.groupMax]; omega), hfind]

end

/-- Settles O24: the slots above the length are not read, and the decoder inverts the encoder. -/
theorem blockRoundTrip : Obligations.BlockRoundTrip := by
  intro bs h1 h4
  have henc := encodeBlock_ok h1 h4
  have hl := blockTuple_length_bounds h1 h4
  refine ⟨_, henc, fun unused => ?_⟩
  have htake : ((blockTuple bs).map (fun i => (i, true)) ++ unused).take (blockTuple bs).length =
      (blockTuple bs).map (fun i => (i, true)) := List.take_left' (List.length_map _)
  rw [decodeBlock_recognized hl.1 hl.2 (by rw [htake]; simp), htake, List.map_map]
  simpa only [Function.comp_def, List.map_id'] using (decodeIndices_eq_ok_iff_encodeBlock hl.1 hl.2).2 henc

/-! ### The image of encodeBlock -/

/-- A group decodes exactly when its digits are below the radix and their value fits the output length (R83). -/
theorem exists_decodeIndices_eq_ok_iff {ix : List Nat} :
    (∃ bs, decodeIndices ix = .ok bs) ↔
      (∀ d ∈ groupDigits ix, d < 1626) ∧ fromBase 1626 (groupDigits ix) < 256 ^ outLength ix := by
  constructor
  · rintro ⟨bs, h⟩
    obtain ⟨hd, hl, hv⟩ := decodeIndices_eq_ok_iff.1 h
    exact ⟨hd, hl ▸ hv ▸ blockValue_lt bs⟩
  · rintro ⟨hd, hlt⟩
    obtain ⟨bs, h, -⟩ := (decodeIndices_of_digits (plainPositions_lt hd) hd).2 hlt
    exact ⟨bs, h⟩

/-- The groups that decode, by their number of indices and the bank of the last of three (R85). -/
theorem exists_decodeIndices_eq_ok_iff_cases {ix : List Nat} (h1 : 1 ≤ ix.length) (h3 : ix.length ≤ 3) :
    (∃ bs, decodeIndices ix = .ok bs) ↔
      (ix.length = 1 ∧ ix.getD 0 0 ≤ 255) ∨
      (ix.length = 2 ∧ (∀ i ∈ ix, i < 1626) ∧ fromBase 1626 ix < 2 ^ 16) ∨
      (ix.length = 3 ∧ ix.getD 0 0 < 1626 ∧ ix.getD 1 0 < 1626 ∧ 1626 ≤ ix.getD 2 0 ∧ ix.getD 2 0 < 3252 ∧
        fromBase 1626 (ix.take 2 ++ [ix.getD 2 0 - 1626]) < 2 ^ 24) ∨
      (ix.length = 3 ∧ (∀ i ∈ ix, i < 1626) ∧ fromBase 1626 ix < 2 ^ 32) := by
  rw [exists_decodeIndices_eq_ok_iff]
  match ix with
  | [a] =>
    rw [groupDigits_plain rfl, outLength_plain rfl]
    suffices a < 1626 ∧ a < 256 ↔ a ≤ 255 by simpa [fromBase]
    omega
  | [a, b] =>
    rw [groupDigits_plain rfl, outLength_plain rfl]
    simp
  | [a, b, c] =>
    rcases lt_or_ge c 1626 with hc | hc
    · rw [groupDigits_plain (hasOffset_of_lt hc), outLength_plain (hasOffset_of_lt hc)]
      simp [hc, not_le.2 hc]
    · obtain ⟨c, rfl⟩ := Nat.exists_eq_add_of_le' hc
      have hlast : c + 1626 < 3252 ↔ c < 1626 := by omega
      rw [groupDigits_offset, outLength_offset]
      simp [hlast, and_assoc]

/-- Settles O25: outside 1 to 3 nothing decodes and no case holds; within, the decoder inverts the encoder. -/
theorem decodeBlockExactImage : Obligations.DecodeBlockExactImage := by
  refine ⟨fun c s hs hr => ?_, fun b₁ b₂ t e₁ e₂ => ?_⟩
  · by_cases hc : 1 ≤ c ∧ c ≤ 3
    · have hlen := groupIndices_length (hs.symm ▸ hc.2)
      have h1 : 1 ≤ ((s.take c).map Prod.fst).length := by omega
      have h3 : ((s.take c).map Prod.fst).length ≤ 3 := by omega
      rw [decodeBlock_recognized hc.1 hc.2 hr]
      refine ⟨by simpa only [hlen] using exists_decodeIndices_eq_ok_iff_cases h1 h3, fun bs h bs' => ?_⟩
      rw [← decodeIndices_eq_ok_iff_encodeBlock h1 h3, h, Except.ok.injEq, eq_comm]
    · rw [decodeBlock_groupLen (by omega)]
      exact ⟨iff_of_false (by simp) (by omega), fun bs h => by cases h⟩
  · obtain ⟨⟨h1, h4⟩, rfl⟩ := encodeBlock_eq_ok_iff.1 e₁
    have hl := blockTuple_length_bounds h1 h4
    rw [← decodeIndices_eq_ok_iff_encodeBlock hl.1 hl.2] at e₁ e₂
    exact Except.ok.inj (e₁.symm.trans e₂)

/-! ### The outcomes of decodeBlock -/

/-- The lowest bank-B index out of place is the one reported (R82 step 4). -/
theorem decodeIndices_bankBPosition {ix : List Nat} {j : Nat} (hj : j < (plainPositions ix).length)
    (hbad : 1626 ≤ ix.getD j 0) (hlow : ∀ i, i < j → ix.getD i 0 < 1626) :
    decodeIndices ix = .error ⟨.bankBPosition, 0#16, BitVec.ofNat 2 j⟩ := by
  have hfind : (plainPositions ix).findIdx? (fun i => decide (Config.radix ≤ i)) = some j :=
    findIdx?_eq_some_of_getD 0 hj (decide_eq_true (by rwa [plainPositions_getD _ hj])) fun i hi =>
      decide_eq_false (by rw [plainPositions_getD _ (hi.trans hj)]; exact not_le.2 (hlow i hi))
  rw [decodeIndices, hfind]
  rfl

/-- An index beyond bank B in the disambiguator position is a digit out of range in slot 2 (R82 step 6). -/
theorem decodeIndices_digitRange {ix : List Nat} (hp : ∀ i ∈ plainPositions ix, i < 1626) (hl : ix.length = 3)
    (hbad : 3252 ≤ ix.getD 2 0) : decodeIndices ix = .error ⟨.digitRange, 0#16, 2#2⟩ := by
  obtain ⟨a, b, c, rfl⟩ := list_of_length_three hl
  obtain ⟨d, rfl⟩ := Nat.exists_eq_add_of_le' (show 1626 ≤ c from le_trans (by decide) hbad)
  have hplain : (plainPositions [a, b, d + 1626]).findIdx? (fun i => decide (Config.radix ≤ i)) = none :=
    findIdx?_eq_none fun i hi => decide_eq_false (not_le.2 (hp i hi))
  have hdigit : [a, b, d].findIdx? (fun d => decide (Config.radix ≤ d)) = some 2 := by
    have hd : 1626 ≤ d := by have : 3252 ≤ d + 1626 := hbad; omega
    have ha : a < 1626 := hp a (by simp [plainPositions])
    have hb : b < 1626 := hp b (by simp [plainPositions])
    refine findIdx?_eq_some_of_getD 0 (Nat.lt_add_one 2) (decide_eq_true hd) fun i hi =>
      decide_eq_false (not_le.2 ?_)
    interval_cases i
    · exact ha
    · exact hb
  rw [decodeIndices, hplain, groupDigits_offset, hdigit]
  rfl

/-- Settles O26: the checks in their order, each on the indices of the group. -/
theorem decodeBlockOutcomes : Obligations.DecodeBlockOutcomes := by
  intro c s hs idx recog offset outLen v
  refine ⟨decodeBlock_groupLen, fun h1 h3 => ⟨fun j hj hbad hlow =>
    decodeBlock_unrecognized h1 h3 (by omega) hj hbad hlow, fun hr => ?_⟩⟩
  have hrec : ∀ x ∈ s.take c, x.2 = true := by
    refine (forall_mem_iff_getD (0, false)).2 fun j hj => ?_
    have hjc : j < c := hj.trans_le (List.length_take_le _ _)
    rw [getD_take _ _ hjc]
    exact hr j hjc
  have hlen := groupIndices_length (hs.symm ▸ h3)
  have hidx : ∀ j < c, ((s.take c).map Prod.fst).getD j 0 = idx j := fun j => groupIndices_getD s
  rw [decodeBlock_recognized h1 h3 hrec]
  generalize (s.take c).map Prod.fst = ix at hlen hidx
  have hoff : hasOffset ix = offset := by
    rw [hasOffset, ← Bool.decide_and, hlen]
    exact decide_eq_decide.2 (and_congr_right fun h => by rw [hidx 2 (by omega)])
  have hout : outLength ix = outLen := by rw [outLength, hlen, hoff]
  have hdig : groupDigits ix = (List.range c).map (fun j => if offset ∧ j = 2 then idx j - 1626 else idx j) := by
    rw [groupDigits_eq_map, hlen, hoff]
    exact List.map_congr_left fun j hj => by rw [hidx j (List.mem_range.1 hj)]
  have hplain (j : Nat) : j < (plainPositions ix).length ↔ j < c ∧ ¬ (c = 3 ∧ j = 2) := by
    rw [plainPositions_length, hlen]; split <;> omega
  refine ⟨fun j hj hne hbad hlow => ?_, fun hp => ?_⟩
  · refine decodeIndices_bankBPosition ((hplain j).2 ⟨hj, hne⟩) (by rwa [hidx j hj]) fun i hi => ?_
    rw [hidx i (hi.trans hj)]; exact hlow i hi
  have hpos : ∀ i ∈ plainPositions ix, i < 1626 := by
    refine (forall_mem_iff_getD 0).2 fun j hj => ?_
    obtain ⟨hjc, hne⟩ := (hplain j).1 hj
    rw [plainPositions_getD _ hj, hidx j hjc]
    exact hp j hjc hne
  refine ⟨fun hc3 hbad => decodeIndices_digitRange hpos (hlen.trans hc3) (by rwa [hidx 2 (by omega)]), fun hlast => ?_⟩
  have hd : ∀ d ∈ groupDigits ix, d < 1626 :=
    groupDigits_lt hpos fun hl => by rw [hidx 2 (by omega)]; exact hlast (hlen.symm.trans hl)
  have hov := decodeIndices_of_digits hpos hd
  rwa [hdig, hout] at hov

/-! ### ENCBLK and DECBLK -/

theorem encblkOutcome_blockLen {o : Snapshot} (h : o.regs.blkLen.toNat = 0 ∨ 4 < o.regs.blkLen.toNat) :
    encblkOutcome o = .error (.plain .blockLen) := if_pos h

theorem encblkOutcome_eq_encodeBlock {o : Snapshot} (h1 : 1 ≤ o.regs.blkLen.toNat) (h4 : o.regs.blkLen.toNat ≤ 4) :
    encblkOutcome o = encodeBlock o.regs.block := if_neg (by simp only [Config.blockMax]; omega)

@[simp] theorem Regs.block_length (g : Regs) : g.block.length = g.blkLen.toNat := by simp [Regs.block]

/-- Settles O27: a tuple has at most three indices below 3252, so IDX_OUT_CNT and the slot words hold them whole. -/
theorem encblkResult : Obligations.EncblkResult := by
  refine ⟨by decide, fun s => ⟨fun hn => ?_, fun h1 h4 => ?_⟩⟩
  · rw [exec_encblk, encblkOutcome_blockLen hn, State.commit_error]; rfl
  have henc := encodeBlock_ok (bs := s.operands.regs.block) (by rwa [Regs.block_length]) (by rwa [Regs.block_length])
  have hout := (encblkOutcome_eq_encodeBlock h1 h4).trans henc
  obtain ⟨hl, hlt⟩ := encblkOutcome_ok hout
  refine ⟨_, _, _, _, _, henc, by rw [exec_encblk, hout, State.commit_writeTuple], ?_, fun j hj => ?_⟩
  · rw [BitVec.toNat_ofNat]; omega
  · rw [← tupleSlot_toNat hlt j]
    interval_cases j <;> rfl

/-- Settles O28: every error of `decodeBlock` has position 0, and a block of 1 to 4 bytes fills the low lanes. -/
theorem decblkResult : Obligations.DecblkResult := by
  refine ⟨by decide, fun s => ⟨fun e he => ?_, fun bs hbs => ?_⟩⟩
  · have hout : decblkOutcome s.operands = .error e := he
    rw [exec_decblk, hout, State.commit_error, (decodeBlock_error_detail he).2]
  · have hout : decblkOutcome s.operands = .ok bs := hbs
    obtain ⟨h1, h4⟩ := decodeBlock_ok_length (Nat.le_of_lt_succ s.operands.regs.idxInCnt.isLt) hbs
    refine ⟨_, _, by rw [exec_decblk, hout, State.commit_writeBlock], ?_, h1, h4, fun i hi => lane_blockWord h4 hi⟩
    rw [BitVec.toNat_ofNat]; omega

/-! ### The partition of a byte sequence -/

/-- The first block is the first four bytes, or what there is, and the other blocks are those of the rest (R95). -/
theorem partition_of_ne_nil : ∀ {bs : List Byte}, bs ≠ [] → partition bs = bs.take 4 :: partition (bs.drop 4)
  | [], h => absurd rfl h
  | [_], _ => rfl
  | [_, _], _ => rfl
  | [_, _, _], _ => rfl
  | _ :: _ :: _ :: _ :: _, _ => rfl

/-- A property of every byte sequence, block by block. -/
theorem partition_induction {P : List Byte → Prop} (nil : P []) (block : ∀ bs, bs ≠ [] → P (bs.drop 4) → P bs)
    (bs : List Byte) : P bs := by
  induction h : bs.length using Nat.strong_induction_on generalizing bs with
  | _ n ih =>
    subst h
    by_cases hne : bs = []
    · exact hne ▸ nil
    · have hpos := List.length_pos_of_ne_nil hne
      exact block bs hne (ih _ (by rw [List.length_drop]; omega) _ rfl)

theorem partition_length (bs : List Byte) : (partition bs).length = (bs.length + 3) / 4 := by
  induction bs using partition_induction with
  | nil => rfl
  | block bs hne ih =>
    have hpos := List.length_pos_of_ne_nil hne
    rw [partition_of_ne_nil hne, List.length_cons, ih, List.length_drop]
    omega

theorem partition_flatten (bs : List Byte) : (partition bs).flatten = bs := by
  induction bs using partition_induction with
  | nil => rfl
  | block bs hne ih => rw [partition_of_ne_nil hne, List.flatten_cons, ih, List.take_append_drop]

theorem partition_getD (bs : List Byte) (k : Nat) : (partition bs).getD k [] = (bs.drop (4 * k)).take 4 := by
  induction bs using partition_induction generalizing k with
  | nil => simp [partition]
  | block bs hne ih =>
    rw [partition_of_ne_nil hne]
    cases k with
    | zero => rfl
    | succ k => rw [List.getD_cons_succ, ih, List.drop_drop, Nat.mul_succ, Nat.add_comm]

/-- Block `k` has the bytes that are left from 4k on, at most four. -/
theorem partition_getD_length (bs : List Byte) (k : Nat) :
    ((partition bs).getD k []).length = min 4 (bs.length - 4 * k) := by
  rw [partition_getD, List.length_take, List.length_drop]

theorem partition_block_length {bs b : List Byte} (hb : b ∈ partition bs) : 1 ≤ b.length ∧ b.length ≤ 4 := by
  obtain ⟨k, hk, rfl⟩ := List.mem_iff_getElem.1 hb
  rw [← List.getD_eq_getElem _ [] hk, partition_getD_length]
  rw [partition_length] at hk
  omega

/-- Settles O31: number, length and place of the blocks, by induction block by block. -/
theorem partitionBlocks : Obligations.PartitionBlocks := by
  refine fun bs => ⟨partition_length bs, fun k _ => partition_getD bs k, partition_flatten bs,
    fun _ => partition_block_length, fun k hk => ?_, fun b hb => ?_⟩
  · rw [partition_length] at hk
    rw [partition_getD_length]; omega
  · obtain ⟨h1, h4⟩ := partition_block_length hb
    exact ⟨_, encodeBlock_ok h1 h4⟩

end Sys2Proof.Machine

/-! ## The word banks: the address of an index and XLATE
An index below 3252 is `g * 1626 + r` for one bank `g` and one row `r`, and `bankAddr` puts the two in their bit fields
(`bankAddr_of_bank_row`); both directions of the address map follow from that (42_word_bank_lookup.md). -/

namespace Sys2Proof.Machine

/-! ### Word-bank addresses -/

/-- BANK in bit 11 and ROW in the bits below (R89). -/
theorem bankAddr_of_bank_row {g r : Nat} (hg : g < 2) (hr : r < 1626) : bankAddr (g * 1626 + r) = g * 2 ^ 11 + r := by
  simp only [bankAddr, Config.bankSize]; split <;> omega

theorem bankAddr_eq_div_mod {i : Nat} (h : i < 3252) : bankAddr i = i / 1626 * 2 ^ 11 + i % 1626 := by
  have hi := bankAddr_of_bank_row (g := i / 1626) (r := i % 1626) (by omega) (Nat.mod_lt i (by decide))
  rwa [Nat.div_add_mod'] at hi

theorem bankAddr_bank_row_of_addr {a : Nat} (ha : a < 2 ^ 12) (hrow : a % 2 ^ 11 < 1626) :
    bankAddr (a / 2 ^ 11 * 1626 + a % 2 ^ 11) = a := by
  rw [bankAddr_of_bank_row (by omega) hrow, Nat.div_add_mod']

theorem indexOfBankAddr_eq {a : Nat} (ha : a < 2 ^ 12) : indexOfBankAddr a = a / 2 ^ 11 * 1626 + a % 2 ^ 11 := by
  rw [indexOfBankAddr, Nat.mod_eq_of_lt (by omega), Config.bankSize]

/-- Settles O29: bank and row of an index are its quotient and remainder by 1626, those of an address its bit fields. -/
theorem bankAddressInverse : Obligations.BankAddressInverse := by
  refine ⟨fun i hi => ?_, fun a ha hrow => ?_⟩
  · refine ⟨bankAddr_lt hi, ?_⟩
    rw [bankAddr_eq_div_mod hi]
    split_ifs <;> omega
  · exact ⟨by omega, bankAddr_bank_row_of_addr ha hrow, indexOfBankAddr_eq ha⟩

/-! ### XLATE -/

theorem xlateOutcome_indexRange {o : Snapshot} (h : 3252 ≤ o.regs.idxIn0.idx.toNat) :
    xlateOutcome o = .error (.plain .indexRange) := if_pos h

theorem xlateOutcome_of_lt {o : Snapshot} (h : o.regs.idxIn0.idx.toNat < 3252) :
    xlateOutcome o = .ok [o.regs.idxIn0.idx.toNat] := if_neg (not_le.2 h)

/-- Settles O30: the index is written as a tuple of one, so that slot 0 is its slot word and the other slots are 0. -/
theorem xlateResult : Obligations.XlateResult := by
  refine ⟨by decide, fun s => ⟨fun hrange => ?_, fun hlt => ?_⟩⟩
  · rw [exec_xlate, xlateOutcome_indexRange hrange, State.commit_error]; rfl
  · refine ⟨slotWord s.operands.regs.idxIn0.idx.toNat, ?_, slotWord_toNat hlt⟩
    rw [exec_xlate, xlateOutcome_of_lt hlt, State.commit_writeTuple]; rfl

end Sys2Proof.Machine

/-! ## Sequences: ENCSEQ, DECSEQ and the round trip
ENCSEQ stores the tuple of each block as a group entry, and every word of an entry then reads whatever the free draw
(`Memory.cell32_storeList_entries`). What DECSEQ reads of such an entry is the tuple, so decoding the groups gives the
sequence back (`decseqOutcome_of_entries`; 43_sequence.md). -/

namespace Sys2Proof.Machine

/-! ### Runs of bytes -/

section
variable (m : Memory) {bs : List Byte} {a : Nat}

theorem Memory.byte?_storeList_add {i : Nat} (hi : i < bs.length) : (m.storeList a bs).byte? (a + i) = bs[i]? := by
  rw [Memory.byte?_storeList, if_pos (by omega), Nat.add_sub_cancel_left]

theorem Memory.byte?_storeList_of_outside {b : Nat} (h : b < a ∨ a + bs.length ≤ b) :
    (m.storeList a bs).byte? b = m.byte? b := by
  rw [Memory.byte?_storeList, if_neg (by omega)]

end

/-- A failed DECSEQ leaves every byte outside BYTE_BUF[0..4 GRP_CNT) alone (R100). -/
theorem byte?_disturbSeq_of_outside (s : State) {g a : Nat} (h : a < 0x10000 ∨ 0x10000 + 4 * g ≤ a) :
    (s.disturbSeq g).mem.byte? a = s.mem.byte? a := by
  rw [State.disturbSeq_mem]
  exact Memory.byte?_disturbCells_of_outside _ _ _ _ _ _ _ fun j hj => by simp only [byteAddr]; omega

/-! ### Group entries -/

/-- A word of the entries that ENCSEQ stores reads as stored: all four words of an entry are written (R98). -/
theorem Memory.cell32_storeList_entries (m : Memory) {ts : List (List Nat)} {t : List Nat} {k i : Nat}
    (ht : ts[k]? = some t) (hi : i < 4) (draw : Nat) :
    (m.storeList (groupAddr 0 0) (ts.flatMap entryBytes)).cell32 draw (groupAddr k i) =
      (entryWords t).getD i 0#32 := by
  refine Memory.cell32_of_bytes (fun l hl => ?_) draw
  obtain ⟨hk, -⟩ := List.getElem?_eq_some_iff.1 ht
  have haddr : groupAddr k i + l = groupAddr 0 0 + (16 * k + (4 * i + l)) := by simp only [groupAddr]; omega
  rw [haddr, Memory.byte?_storeList_add _ (by rw [entries_length]; omega), entries_getElem? _ _ _ (by omega), ht]
  exact entryBytes_getElem? t hi hl

/-- The words of a stored entry as numbers: HDR the length of the tuple, and its slot words, the unused ones 0 (R64). -/
theorem Memory.cell32_entries_toNat (m : Memory) {ts : List (List Nat)} {t : List Nat} {k : Nat} (ht : ts[k]? = some t)
    (hl : t.length ≤ 3) (hlt : ∀ i ∈ t, i < 3252) (draw : Nat) :
    ((m.storeList (groupAddr 0 0) (ts.flatMap entryBytes)).cell32 draw (0x40000 + 16 * k)).toNat = t.length ∧
    ∀ j, j < 3 →
      ((m.storeList (groupAddr 0 0) (ts.flatMap entryBytes)).cell32 draw (0x40000 + 16 * k + 4 + 4 * j)).toNat =
        if j < t.length then t.getD j 0 + bankAddr (t.getD j 0) * 2 ^ 16 + 2 ^ 31 else 0 := by
  refine ⟨?_, fun j hj => ?_⟩
  · refine (congrArg BitVec.toNat (m.cell32_storeList_entries ht (i := 0) (by omega) draw)).trans ?_
    show (BitVec.ofNat 32 t.length).toNat = _
    rw [BitVec.toNat_ofNat]; omega
  · have haddr : 0x40000 + 16 * k + 4 + 4 * j = groupAddr k (j + 1) := by simp only [groupAddr]; omega
    rw [haddr, m.cell32_storeList_entries ht (by omega), ← tupleSlot_toNat hlt]
    interval_cases j <;> rfl

/-- The slots of an entry as DECSEQ reads them: the indices of the tuple, recognised, and then the unused ones. -/
theorem entrySlots_eq_append {t : List Nat} (hl : t.length ≤ 3) (hlt : ∀ i ∈ t, i < 3252) :
    ∃ unused, [(slotOfWord (tupleSlot t 0)).codec, (slotOfWord (tupleSlot t 1)).codec,
      (slotOfWord (tupleSlot t 2)).codec] = t.map (fun i => (i, true)) ++ unused := by
  have used : ∀ i ∈ t, (slotOfWord (slotWord i)).codec = (i, true) := fun i hi => slotOfWord_slotWord (hlt i hi)
  match t with
  | [] => exact ⟨_, rfl⟩
  | [a] => exact ⟨_, congrArg (· :: _) (used a (by simp))⟩
  | [a, b] => exact ⟨_, congrArg₂ (· :: · :: _) (used a (by simp)) (used b (by simp))⟩
  | [a, b, c] =>
    refine ⟨[], ?_⟩
    simp [tupleSlot, used]

/-- A group entry that ENCSEQ wrote for a block decodes to the block (R84, R98, R99). -/
theorem decodeBlock_group_of_entries {o : Snapshot} {m : Memory} {ts : List (List Nat)}
    (hm : o.mem = m.storeList (groupAddr 0 0) (ts.flatMap entryBytes)) {k : Nat} {b : List Byte}
    (h1 : 1 ≤ b.length) (h4 : b.length ≤ 4) (ht : ts[k]? = some (blockTuple b)) (draw : Nat) :
    decodeBlock (o.group draw k).1 (o.group draw k).2 = .ok b := by
  have hlen := blockTuple_length_bounds h1 h4
  have word (i : Nat) (hi : i < 4) : o.mem.cell32 draw (groupAddr k i) = (entryWords (blockTuple b)).getD i 0#32 := by
    rw [hm]; exact m.cell32_storeList_entries ht hi draw
  obtain ⟨unused, hslots⟩ := entrySlots_eq_append hlen.2 (blockTuple_lt b)
  obtain ⟨t, henc, hdec⟩ := blockRoundTrip b h1 h4
  obtain rfl : blockTuple b = t := (encodeBlock_eq_ok_iff.1 henc).2
  have hcount : ((BitVec.ofNat 32 (blockTuple b).length).extractLsb' 0 2).toNat = (blockTuple b).length := by
    rw [extract_toNat, BitVec.toNat_ofNat]; omega
  rw [← hdec unused, ← hslots, Snapshot.group, word 0 (by omega), word 1 (by omega), word 2 (by omega),
    word 3 (by omega)]
  exact congrArg (decodeBlock · _) hcount

/-! ### Groups in their order -/

theorem flatMap_getD_range (l : List (List Byte)) :
    (List.range l.length).flatMap (fun k => l.getD k []) = l.flatten := by
  rw [List.flatMap_def]
  refine congrArg List.flatten (List.ext_getElem (by simp) fun k _ hk => ?_)
  rw [List.getElem_map, List.getElem_range, List.getD_eq_getElem _ _ hk]

/-- Groups that all decode give their bytes joined (R99). -/
theorem decodeGroups_map_ok {α : Type} {l : List α} {g : α → Nat × List CodecSlot} {f : α → List Byte}
    (h : ∀ x ∈ l, decodeBlock (g x).1 (g x).2 = .ok (f x)) (k : Nat) :
    decodeGroups k (l.map g) = .ok (l.flatMap f) := by
  induction l generalizing k with
  | nil => rfl
  | cons x l ih =>
    simp only [List.map_cons, decodeGroups, h x (by simp), ih (fun y hy => h y (by simp [hy])), List.flatMap_cons]

/-- The lowest group that fails gives its error, with its index as the position (R99). -/
theorem decodeGroups_error {gs : List (Nat × List CodecSlot)} {j : Nat} {e : CmdError} (hj : j < gs.length)
    (he : decodeBlock gs[j].1 gs[j].2 = .error e)
    (hlow : ∀ i (hi : i < j), ∃ bs, decodeBlock gs[i].1 gs[i].2 = .ok bs) (k : Nat) :
    decodeGroups k gs = .error ⟨e.detail, BitVec.ofNat 16 (k + j), e.slot⟩ := by
  induction gs generalizing j k with
  | nil => simp at hj
  | cons g gs ih =>
    cases j with
    | zero =>
      rw [List.getElem_cons_zero] at he
      simp only [decodeGroups, he, Nat.add_zero]
    | succ j =>
      obtain ⟨bs, hbs⟩ := hlow 0 (by omega)
      rw [List.getElem_cons_zero] at hbs
      have hrest := ih (j := j) (by simpa using hj) he (fun i hi => hlow (i + 1) (by omega)) (k + 1)
      simp only [decodeGroups, hbs, hrest, Nat.add_assoc, Nat.add_comm 1 j]

/-! ### Operands -/

section
variable (o : Snapshot) (draw : Nat)

@[simp] theorem Snapshot.seqBytes_length : (o.seqBytes draw).length = o.regs.seqLen.toNat := by simp [Snapshot.seqBytes]

theorem Snapshot.seqBytes_getElem? {a : Nat} (ha : a < o.regs.seqLen.toNat) :
    (o.seqBytes draw)[a]? = some (o.mem.byteAt draw (byteAddr a)) := by simp [Snapshot.seqBytes, ha]

/-- Block `k` of the sequence: the bytes from 4k on, at most four (R95). -/
theorem Snapshot.seqBytes_block (k : Nat) :
    (partition (o.seqBytes draw)).getD k [] =
      (List.range (min 4 (o.regs.seqLen.toNat - 4 * k))).map (fun i => o.mem.byteAt draw (byteAddr (4 * k + i))) := by
  rw [partition_getD]
  refine List.ext_getElem (by simp) fun i hi _ => ?_
  simp [Snapshot.seqBytes]

/-- IDX and RECOG of a word as number and bit (R63). -/
theorem slotOfWord_codec (w : Word) : (slotOfWord w).codec = (w.toNat % 2 ^ 12, w.getLsbD 31) := by
  simp only [slotOfWord, Slot.codec, extract_toNat, pow_zero, Nat.div_one]

/-- A group entry as DECSEQ reads it, in numbers (R64). -/
theorem Snapshot.group_eq (k : Nat) :
    o.group draw k =
      ((o.mem.cell32 draw (groupAddr k 0)).toNat % 4,
        [((o.mem.cell32 draw (groupAddr k 1)).toNat % 2 ^ 12, (o.mem.cell32 draw (groupAddr k 1)).getLsbD 31),
         ((o.mem.cell32 draw (groupAddr k 2)).toNat % 2 ^ 12, (o.mem.cell32 draw (groupAddr k 2)).getLsbD 31),
         ((o.mem.cell32 draw (groupAddr k 3)).toNat % 2 ^ 12, (o.mem.cell32 draw (groupAddr k 3)).getLsbD 31)]) := by
  simp only [Snapshot.group, slotOfWord_codec, extract_toNat, pow_zero, Nat.div_one]
  rfl

end

/-! ### Outcomes -/

section
variable {p : Config.Params} {o : Snapshot} {draw : Nat}

theorem encseqOutcome_seqRange (h : p.bufBytes < o.regs.seqLen.toNat) :
    encseqOutcome p o draw = .error (.plain .seqRange) := if_pos h

theorem encseqOutcome_of_le (h : o.regs.seqLen.toNat ≤ p.bufBytes) :
    encseqOutcome p o draw = .ok ((partition (o.seqBytes draw)).map blockTuple) := if_neg (not_lt.2 h)

theorem decseqOutcome_seqRange (h : p.groupEntries < o.regs.grpCnt.toNat) :
    decseqOutcome p o draw = .error (.plain .seqRange) := if_pos h

theorem decseqOutcome_of_le (h : o.regs.grpCnt.toNat ≤ p.groupEntries) :
    decseqOutcome p o draw = decodeGroups 0 (o.groups draw) := if_neg (not_lt.2 h)

/-- DECSEQ on the entries of a sequence gives the sequence (R101). -/
theorem decseqOutcome_of_entries {m : Memory} {bs : List Byte}
    (hm : o.mem = m.storeList (groupAddr 0 0) (((partition bs).map blockTuple).flatMap entryBytes))
    (hcnt : o.regs.grpCnt.toNat = (partition bs).length) (hle : o.regs.grpCnt.toNat ≤ p.groupEntries) :
    decseqOutcome p o draw = .ok bs := by
  have hgroup : ∀ k ∈ List.range o.regs.grpCnt.toNat,
      decodeBlock (o.group draw k).1 (o.group draw k).2 = .ok ((partition bs).getD k []) := by
    intro k hk
    rw [List.mem_range, hcnt] at hk
    rw [List.getD_eq_getElem _ _ hk]
    obtain ⟨h1, h4⟩ := partition_block_length (List.getElem_mem hk)
    exact decodeBlock_group_of_entries hm h1 h4 (by simp [hk]) draw
  rw [decseqOutcome_of_le hle, Snapshot.groups, decodeGroups_map_ok hgroup, hcnt, flatMap_getD_range,
    partition_flatten]

end

/-! ### The two commands -/

section
variable {s : State}

theorem exec_encseq_seqRange (h : s.params.bufBytes < s.operands.regs.seqLen.toNat) :
    exec .encseq s = .next (s.afterError .seqRange 0#16 0#2 s.mem) := by
  rw [exec_encseq, encseqOutcome_seqRange h, State.commit_error]; rfl

theorem exec_encseq_of_le (h : s.operands.regs.seqLen.toNat ≤ s.params.bufBytes) :
    exec .encseq s = .next (s.afterOk
      { s.regs with grpCnt := BitVec.ofNat 16 (partition (s.operands.seqBytes s.draws)).length }
      (s.mem.storeList (groupAddr 0 0)
        (((partition (s.operands.seqBytes s.draws)).map blockTuple).flatMap entryBytes))) := by
  rw [exec_encseq, encseqOutcome_of_le h, State.commit_writeEntries, List.length_map]

/-- GRP_CNT holds the number of blocks whole: BUF_BYTES is at most 65532 (R7). -/
theorem ofNat_partition_length_toNat {p : Config.Params} {bs : List Byte} (h : bs.length ≤ p.bufBytes) :
    (BitVec.ofNat 16 (partition bs).length).toNat = (bs.length + 3) / 4 := by
  have hp := params_bounds p
  rw [BitVec.toNat_ofNat, partition_length]; omega

theorem exec_decseq_seqRange (h : s.params.groupEntries < s.operands.regs.grpCnt.toNat) :
    exec .decseq s = .next (s.afterError .seqRange 0#16 0#2 s.mem) := by
  rw [exec_decseq, decseqOutcome_seqRange h, State.commit_error]; rfl

theorem exec_decseq_ok {bs : List Byte} (h : decseqOutcome s.params s.operands s.draws = .ok bs) :
    exec .decseq s = .next (s.afterOk { s.regs with seqLen := BitVec.ofNat 16 bs.length }
      (s.mem.storeList (byteAddr 0) bs)) := by
  rw [exec_decseq, h, decseqDisturbed, State.commit_writeSeq]

/-- A group that fails ends DECSEQ in its error, with BYTE_BUF[0..4 GRP_CNT) UNSPEC (R100). -/
theorem exec_decseq_error {e : CmdError} (h : decseqOutcome s.params s.operands s.draws = .error e)
    (hd : e.detail ≠ .seqRange) :
    exec .decseq s = .next (s.afterError e.detail e.pos e.slot (s.disturbSeq s.operands.regs.grpCnt.toNat).mem) := by
  rw [exec_decseq, h, decseqDisturbed, if_neg hd, State.commit_error]; rfl

end

/-- Settles O32: block `k` of the sequence has its tuple's words in entry `k`, and nothing else is stored. -/
theorem encseqResult : Obligations.EncseqResult := by
  refine ⟨by decide, fun s => ⟨exec_encseq_seqRange, fun hn => ⟨_, _, exec_encseq_of_le hn, ?_, fun k hk => ?_,
    fun a ha => ?_⟩⟩⟩
  · rw [ofNat_partition_length_toNat (p := s.params) (by rwa [Snapshot.seqBytes_length]), Snapshot.seqBytes_length]
  · have hk' : k < (partition (s.operands.seqBytes s.draws)).length := by
      rwa [partition_length, Snapshot.seqBytes_length]
    obtain ⟨h1, h4⟩ := partition_block_length (List.getElem_mem hk')
    have hblock := s.operands.seqBytes_block s.draws k
    rw [List.getD_eq_getElem _ _ hk'] at hblock
    exact ⟨_, hblock ▸ encodeBlock_ok h1 h4,
      s.mem.cell32_entries_toNat (by simp [hk']) (blockTuple_length_bounds h1 h4).2 (blockTuple_lt _)⟩
  · refine Memory.byte?_storeList_of_outside _ ?_
    rw [entries_length, List.length_map, partition_length, Snapshot.seqBytes_length]
    exact ha

/-- Settles O33: with GRP_CNT in range the groups decide, in their order. -/
theorem decseqResult : Obligations.DecseqResult := by
  refine ⟨by decide, fun s => ?_⟩
  intro n word slot group
  have hgroup : ∀ k, decodeBlock (s.operands.group s.draws k).1 (s.operands.group s.draws k).2 = group k :=
    fun k => by rw [Snapshot.group_eq]; rfl
  refine ⟨exec_decseq_seqRange, fun hn f hf => ?_, fun hn k e hk he hlow => ?_⟩
  · have hok : decseqOutcome s.params s.operands s.draws = .ok ((List.range n).flatMap f) := by
      rw [decseqOutcome_of_le hn]
      exact decodeGroups_map_ok (fun k hk => (hgroup k).trans (hf k (List.mem_range.1 hk))) 0
    have hp := params_bounds s.params
    obtain ⟨hlen, hbuf⟩ := decseqOutcome_ok hok
    refine ⟨_, _, exec_decseq_ok hok, ?_, hlen, fun a => Memory.byte?_storeList_add _,
      fun a => Memory.byte?_storeList_of_outside _⟩
    rw [BitVec.toNat_ofNat]
    exact Nat.mod_eq_of_lt (by omega)
  · have herr : decseqOutcome s.params s.operands s.draws = .error ⟨e.detail, BitVec.ofNat 16 k, e.slot⟩ := by
      rw [decseqOutcome_of_le hn, ← Nat.zero_add k]
      refine decodeGroups_error (by simpa [Snapshot.groups] using hk) ?_ (fun i hi => ?_) 0
      · simpa [Snapshot.groups, hgroup] using he
      · simpa [Snapshot.groups, hgroup] using hlow i hi
    exact ⟨_, exec_decseq_error herr (decodeBlock_error_ne he).2, fun a => byte?_disturbSeq_of_outside s⟩

/-- Settles O34: SEQ_RANGE stores nothing, and in range BYTE_BUF[0..4 GRP_CNT) ends below GROUP_BUF. -/
theorem decseqErrorLeaves : Obligations.DecseqErrorLeaves := by
  intro s t h herr
  rcases lt_or_ge s.params.groupEntries s.operands.regs.grpCnt.toNat with hgt | hle
  · rw [exec_decseq_seqRange hgt] at h
    cases h
    exact ⟨rfl, fun _ => rfl, fun _ _ => rfl, fun _ _ _ => rfl⟩
  cases ho : decseqOutcome s.params s.operands s.draws with
  | ok bs =>
    rw [exec_decseq_ok ho] at h
    cases h
    cases herr
  | error e =>
    have hd : e.detail ≠ .seqRange := (decodeGroups_error_ne _ _ _ ((decseqOutcome_of_le hle).symm.trans ho)).2
    rw [exec_decseq_error ho hd] at h
    cases h
    refine ⟨rfl, fun hs => absurd hs hd, fun a => byte?_disturbSeq_of_outside s, fun k i draw => ?_⟩
    have hp := params_bounds s.params
    exact Memory.cell32_congr (fun l _ => byte?_disturbSeq_of_outside s (by simp only [groupAddr]; omega)) draw

/-- DECSEQ accepted right after ENCSEQ decodes the bytes that ENCSEQ read (R101). -/
theorem decseqOutcome_after_encseq {s t : State} (hn : s.operands.regs.seqLen.toNat ≤ s.params.bufBytes)
    (ht : exec .encseq s = .next t) (w : Word) (d draw : Nat) :
    decseqOutcome t.params (t.accept w d).operands draw = .ok (s.operands.seqBytes s.draws) := by
  have hp := params_bounds s.params
  have hcnt := ofNat_partition_length_toNat (p := s.params) (bs := s.operands.seqBytes s.draws)
    (by rwa [Snapshot.seqBytes_length])
  have hle : ((s.operands.seqBytes s.draws).length + 3) / 4 ≤ s.params.groupEntries := by
    rw [Snapshot.seqBytes_length]; omega
  rw [exec_encseq_of_le hn] at ht
  cases ht
  exact decseqOutcome_of_entries rfl (hcnt.trans (partition_length _).symm) (hcnt.trans_le hle)

/-- Settles O35: DECSEQ gives back what ENCSEQ read, and what it read of a written byte is the byte. -/
theorem sequenceRoundTrip : Obligations.SequenceRoundTrip := by
  intro s t u d₁ d₂ hn hw ht hu
  rw [exec_decseq_ok (decseqOutcome_after_encseq (s := s.accept 0x00000006#32 d₁) hn ht _ _ _)] at hu
  cases hu
  have hlen := (s.accept 0x00000006#32 d₁).operands.seqBytes_length s.draws
  refine ⟨rfl, ?_, fun a ha => ?_⟩
  · exact (congrArg (BitVec.ofNat 16) hlen).trans (by rw [BitVec.ofNat_toNat, BitVec.setWidth_eq]; rfl)
  · obtain ⟨v, hv⟩ := Option.isSome_iff_exists.1 (hw a ha)
    refine (Memory.byte?_storeList_add _ (hlen.symm ▸ ha)).trans ?_
    refine ((s.accept 0x00000006#32 d₁).operands.seqBytes_getElem? s.draws ha).trans ?_
    rw [hv]
    exact congrArg some (Memory.byteAt_of_some hv s.draws)

end Sys2Proof.Machine

/-! ## Control: acceptance, the completion step and what a command leaves unchanged (44_control.md)
A completed command has one of two forms, `exec_cases`. What every command keeps of the registers follows from it once,
`exec_keeps`. A pending command is due at once or waits one host transaction, `step_of_due` and `step_of_waiting`, and
its delay bounds the waits. -/

namespace Sys2Proof.Machine

/-! ### Acceptance (R102) and the busy rule (R128) -/

/-- A write to any target but CTRL and STATUS, when busy, is dropped and sets OVR (R128). -/
theorem hostWrite_busy {s : State} {a : HostAddr} {d : Word} (hr : s.rst = false) (hb : s.regs.busy = true)
    (hc : target s.params a ≠ .reg .ctrl) (hs : target s.params a ≠ .reg .status) :
    s.hostWrite a d = { s with regs := { s.regs with ovr := true } } := by
  rw [State.hostWrite, hr]
  split
  · contradiction
  · split
    · contradiction
    · contradiction
    · simp [hb]

/-- Settles O40: a write to CMD is an acceptance when idle, and dropped when busy. -/
theorem acceptanceEffect : Obligations.AcceptanceEffect := by
  intro s w hr
  refine ⟨fun hb => ⟨Config.latency s.draws, hostWrite_cmd hr hb⟩, fun hb => ?_⟩
  have ht : target s.params 0x0000C#20 = .reg .cmd := target_scriptAddr_reg s.params .cmd
  exact hostWrite_busy hr hb (by rw [ht]; decide) (by rw [ht]; decide)

/-! ### STATUS after a command -/

section
variable {s : State} (ho : s.regs.ovr = false)
include ho

/-- After Ok, STATUS reads DONE and nothing else (R24, R111). -/
theorem statusWord_afterOk (m : Memory) : (s.afterOk s.regs m).regs.statusWord = 0x2#32 := by
  apply BitVec.eq_of_toNat_eq
  rw [Regs.statusWord_toNat]
  simp [State.afterOk, ho, Kind.code, Detail.code]

/-- After an error, STATUS reads DONE, ERR, the detail and its kind (R24, R110, R111). -/
theorem statusWord_afterError (d : Detail) (pos : BitVec 16) (slot : BitVec 2) (m : Memory) :
    (s.afterError d pos slot m).regs.statusWord.toNat = 0xA + 16 * d.kind.code + 256 * d.code := by
  rw [Regs.statusWord_toNat]
  simp [State.afterError, ho]

end

/-! ### NOP and BAD_OP -/

/-- Settles O36. -/
theorem nopResult : Obligations.NopResult :=
  ⟨rfl, fun s => ⟨exec_nop s, fun ho => statusWord_afterOk ho s.mem⟩⟩

/-- Settles O37: a word of 8 or more decodes to one of the two reserved classes, and both run alike. -/
theorem badOpResult : Obligations.BadOpResult := by
  refine ⟨fun w s hw => ⟨?_, fun ho => BitVec.eq_of_toNat_eq (statusWord_afterError ho _ _ _ _)⟩,
    fun s => ⟨fun op => exec_badOpReservedOpcode op s, fun mbz op => exec_badOpReservedBits mbz op s⟩⟩
  rw [decodeWord_of_eight_le hw]
  split
  · exact exec_badOpReservedOpcode _ s
  · exact exec_badOpReservedBits _ _ s

/-! ### What a command leaves unchanged (R51, R103, R104) -/

/-- `g` with the record of a command's outcome taken from `r`: STATUS but for OVR, and ERR_POS. -/
def Regs.withRecordOf (g r : Regs) : Regs :=
  { g with
    busy := r.busy, done := r.done, err := r.err, kind := r.kind, detail := r.detail, errPos := r.errPos,
    errSlot := r.errSlot }

/-- The registers that no command writes (R51), every other register at its reset value. -/
def Regs.inputs (g : Regs) : Regs :=
  { Regs.reset with
    ie := g.ie, ovr := g.ovr, cmd := g.cmd, blkIn := g.blkIn, blkLen := g.blkLen, idxIn0 := g.idxIn0,
    idxIn1 := g.idxIn1, idxIn2 := g.idxIn2, idxInCnt := g.idxInCnt, base := g.base }

section
variable {i : Instr} (g s : Regs)

theorem Regs.withResultsOf_inputs (i : Instr) : (g.withResultsOf i s).inputs = g.inputs := by cases i <;> rfl

theorem Regs.withResultsOf_ndig (h : i ≠ .tobase) : (g.withResultsOf i s).ndig = g.ndig := by
  cases i
  case tobase => contradiction
  all_goals rfl

theorem Regs.withResultsOf_val (h : i ≠ .frombase) :
    ((g.withResultsOf i s).valLo, (g.withResultsOf i s).valHi) = (g.valLo, g.valHi) := by
  cases i
  case frombase => contradiction
  all_goals rfl

theorem Regs.withResultsOf_idxOut (he : i ≠ .encblk) (hx : i ≠ .xlate) :
    ((g.withResultsOf i s).idxOut0, (g.withResultsOf i s).idxOut1, (g.withResultsOf i s).idxOut2,
      (g.withResultsOf i s).idxOutCnt) = (g.idxOut0, g.idxOut1, g.idxOut2, g.idxOutCnt) := by
  cases i
  case encblk | xlate => contradiction
  all_goals rfl

theorem Regs.withResultsOf_blkOut (h : i ≠ .decblk) :
    ((g.withResultsOf i s).blkOut, (g.withResultsOf i s).blkOutLen) = (g.blkOut, g.blkOutLen) := by
  cases i
  case decblk => contradiction
  all_goals rfl

theorem Regs.withResultsOf_grpCnt (h : i ≠ .encseq) : (g.withResultsOf i s).grpCnt = g.grpCnt := by
  cases i
  case encseq => contradiction
  all_goals rfl

theorem Regs.withResultsOf_seqLen (h : i ≠ .decseq) : (g.withResultsOf i s).seqLen = g.seqLen := by
  cases i
  case decseq => contradiction
  all_goals rfl

end

section
variable {i : Instr} {s t : State} (h : exec i s = .next t)
include h

/-- A command keeps what of the registers is neither its own result nor the record of its outcome. -/
theorem exec_keeps {α : Type} (f : Regs → α) (record : ∀ g r : Regs, f (g.withRecordOf r) = f g)
    (results : ∀ g : Regs, f (g.withResultsOf i s.regs) = f g) : f t.regs = f s.regs := by
  rcases exec_cases h with ⟨d, pos, slot, m, _, rfl, _⟩ | ⟨g, m, rfl, e⟩
  · exact record s.regs (s.afterError d pos slot m).regs
  · calc
      f (s.afterOk g m).regs = f g := record g (s.afterOk g m).regs
      _ = f (g.withResultsOf i s.regs) := (results g).symm
      _ = f s.regs := congrArg f e

/-- A command keeps every register that no command writes. -/
theorem exec_inputs {α : Type} (f : Regs → α) : f t.regs.inputs = f s.regs.inputs :=
  congrArg f (exec_keeps h Regs.inputs (fun _ _ => rfl) fun g => g.withResultsOf_inputs s.regs i)

/-- Every command completes: PENDING none, BUSY 0, DONE 1 (R103, R111). -/
theorem exec_completes : t.pending = none ∧ t.regs.busy = false ∧ t.regs.done = true := by
  rcases exec_cases h with ⟨_, _, _, _, _, rfl, _⟩ | ⟨_, _, rfl, _⟩ <;> exact ⟨rfl, rfl, rfl⟩

/-- A command does nothing to what is outside the MBC. -/
theorem exec_outside : t.rst = s.rst ∧ t.script = s.script ∧ t.r = s.r ∧ t.checksFailed = s.checksFailed := by
  rcases exec_cases h with ⟨_, _, _, _, _, rfl, _⟩ | ⟨_, _, rfl, _⟩ <;> exact ⟨rfl, rfl, rfl, rfl⟩

end

/-- Settles O38: what a command keeps, register by register. -/
theorem completionRecord : Obligations.CompletionRecord := by
  intro i s
  obtain ⟨t, h⟩ := exec_next i s
  obtain ⟨pending, busy, done⟩ := exec_completes h
  obtain ⟨rst, script, r, checksFailed⟩ := exec_outside h
  refine ⟨t, h, pending, busy, done, exec_inputs h Regs.ie, exec_inputs h Regs.ovr, exec_inputs h Regs.cmd,
    exec_inputs h Regs.blkIn, exec_inputs h Regs.blkLen, exec_inputs h Regs.idxIn0, exec_inputs h Regs.idxIn1,
    exec_inputs h Regs.idxIn2, exec_inputs h Regs.idxInCnt, exec_inputs h Regs.base, fun hi => ?ndig, fun hi => ?val,
    fun he hx => ?idxOut, fun hi => ?blkOut, fun hi => ?grpCnt, fun hi => ?seqLen, exec_params h, rst, script, r,
    checksFailed, exec_errorRecordOk h⟩
  case ndig => exact exec_keeps h Regs.ndig (fun _ _ => rfl) fun g => g.withResultsOf_ndig _ hi
  case grpCnt => exact exec_keeps h Regs.grpCnt (fun _ _ => rfl) fun g => g.withResultsOf_grpCnt _ hi
  case seqLen => exact exec_keeps h Regs.seqLen (fun _ _ => rfl) fun g => g.withResultsOf_seqLen _ hi
  case val =>
    simpa only [Prod.mk.injEq] using
      exec_keeps h (fun g => (g.valLo, g.valHi)) (fun _ _ => rfl) fun g => g.withResultsOf_val _ hi
  case blkOut =>
    simpa only [Prod.mk.injEq] using
      exec_keeps h (fun g => (g.blkOut, g.blkOutLen)) (fun _ _ => rfl) fun g => g.withResultsOf_blkOut _ hi
  case idxOut =>
    simpa only [Prod.mk.injEq] using
      exec_keeps h (fun g => (g.idxOut0, g.idxOut1, g.idxOut2, g.idxOutCnt)) (fun _ _ => rfl) fun g =>
        g.withResultsOf_idxOut _ he hx

/-- Settles O39: an error writes the record only, and Ok leaves ERR = 0. -/
theorem errorWritesNoResult : Obligations.ErrorWritesNoResult := by
  intro i s t h herr
  rcases exec_cases h with ⟨_, _, _, _, _, rfl, hm⟩ | ⟨_, _, rfl, _⟩
  · exact ⟨rfl, hm⟩
  · cases herr

/-! ### The step of a pending command (R103) -/

section
variable {s : State} {p : Pending}

/-- The completion step comes when the latency is over or the host has nothing left to do. -/
theorem step_of_due (hp : s.pending = some p) (hd : p.delay = 0 ∨ s.script = []) :
    step s = exec (decodeWord p.word) s := by
  rw [step, State.engineWord, hp]
  simp only [if_pos hd]

/-- Before that the step is the host's. -/
theorem step_of_waiting (hp : s.pending = some p) (hd : p.delay ≠ 0) (hs : s.script ≠ []) :
    step s = .next s.hostTurn := by
  rw [step, State.engineWord, hp]
  simp only [if_neg (not_or.2 ⟨hd, hs⟩)]

theorem State.tick_of_pending (hp : s.pending = some p) :
    s.tick = { s with pending := some { p with delay := p.delay - 1 } } := by
  rw [State.tick, hp]; rfl

/-- The host's turn carries out the next statement, which stays only if it is to be repeated. -/
theorem State.hostTurn_of_script {a : HostAction} {rest : List HostAction} (hs : s.script = a :: rest) :
    s.hostTurn =
      { s.tick.perform a with script := if repeats a (s.tick.perform a).r then a :: rest else rest } := by
  rw [State.hostTurn, hs]

/-- A turn of `wait` reads STATUS, and is taken again while BUSY = 1 (R67). -/
theorem State.hostTurn_wait {rest : List HostAction} (hs : s.script = .wait :: rest) (hr : s.rst = false) :
    s.hostTurn = { s.tick with
      r := s.regs.statusWord, draws := s.draws + 1, script := if s.regs.busy then .wait :: rest else rest } := by
  have hread : s.tick.hostRead statusAddr = s.regs.statusWord := hostRead_status s.tick hr
  rw [State.hostTurn_of_script hs, State.perform, State.readInto, hread, repeats, statusWord_busy]
  rfl

end

/-- Settles O5: the two steps of a pending command, the host's by its next statement. -/
theorem stepRunsDecodedCommand : Obligations.StepRunsDecodedCommand := by
  intro s p i hp hi
  have hword : decodeWord p.word = i := by rw [decode_bytesOfWord] at hi; injection hi
  refine ⟨fun hd => by rw [step_of_due hp hd, hword], fun hd a rest hs => ?_⟩
  have hstep : step s = .next s.hostTurn := step_of_waiting hp hd (by rw [hs]; simp)
  refine ⟨hstep, fun ha => ?_, ?_, ?_⟩ <;> rw [hstep]
  · rw [State.hostTurn_of_script hs, repeats_of_ne_wait ha, State.tick_of_pending hp]; rfl
  · rintro rfl hr hb
    rw [State.hostTurn_wait hs hr, hb, State.tick_of_pending hp]; rfl
  · rintro rfl hr hb
    rw [State.hostTurn_wait hs hr, hb, State.tick_of_pending hp]; rfl

/-! ### The wait of a pending command is bounded -/

/-- The address of a register is the only one that leads to it (R19, R43). -/
theorem wordAddr_of_target_reg {p : Config.Params} {a : HostAddr} {n : RegName} (h : target p a = .reg n) :
    wordAddr a = regOffset n := by
  rw [target_eq] at h
  rcases targetAt_cases p (wordAddr a) with ⟨n', ha, e⟩ | ⟨_, ⟨_, _, e⟩ | ⟨_, _, e⟩ | ⟨_, _, e⟩ | ⟨_, _, _, e⟩⟩ <;>
    rw [e] at h <;> cases h
  exact ha

section
variable {s : State} (hb : s.regs.busy = true)
include hb

/-- While busy, a write that is no soft reset leaves PENDING alone (R125, R128). -/
theorem hostWrite_pending_of_busy {a : HostAddr} {d : Word} (h : wordAddr a = 0x008 → d.getLsbD 1 = false) :
    (s.hostWrite a d).pending = s.pending := by
  cases hr : s.rst with
  | true => rw [State.hostWrite, if_pos hr]
  | false =>
    by_cases hc : target s.params a = .reg .ctrl
    · have hd := h (wordAddr_of_target_reg hc)
      simp only [State.hostWrite, hr, hc, State.writeCtrl, hd, Bool.false_eq_true, if_false]
    by_cases hs : target s.params a = .reg .status
    · simp [State.hostWrite, hr, hs]
    · rw [hostWrite_busy hr hb hc hs]

/-- While busy, a statement that cannot reset the block leaves PENDING alone. -/
theorem perform_pending_of_busy {a : HostAction} (h : mayReset a = false) : (s.perform a).pending = s.pending := by
  cases a with
  | rd | expect | wait => rfl
  | wr x v => exact hostWrite_pending_of_busy hb fun hx => by simpa [mayReset, hx] using h
  | wrR x => exact hostWrite_pending_of_busy hb fun hx => by simp [mayReset, hx] at h
  | rst level => rw [show level = false from h]; rfl

end

/-- A turn of the host that cannot reset the block only takes one from the delay of a pending command. -/
theorem hostTurn_pending {s : State} {p : Pending} (hok : s.PendingOk) (hp : s.pending = some p)
    (h : ∀ a ∈ s.script, mayReset a = false) (hs : s.script ≠ []) :
    s.hostTurn.pending = some { p with delay := p.delay - 1 } ∧ ∀ a ∈ s.hostTurn.script, mayReset a = false := by
  rcases hostTurn_cases s with ⟨hnil, _⟩ | ⟨a, rest, hscript, left, hleft, e⟩
  · contradiction
  rw [hscript] at h
  rw [e]
  constructor
  · calc
      (s.tick.perform a).pending = s.tick.pending := 
        perform_pending_of_busy (s := s.tick) (hok.busy_true hp) (h a (by simp))
      _ = some { p with delay := p.delay - 1 } := by rw [State.tick_of_pending hp]
  · rcases hleft with rfl | rfl
    · exact fun b hb => h b (by simp [hb])
    · exact h

/-- When the completion step is due, it completes the pending command, whose word is in CMD (R39, R103). -/
theorem step_completes {s : State} {p : Pending} (hok : s.PendingOk) (hp : s.pending = some p)
    (hd : p.delay = 0 ∨ s.script = []) :
    ∃ t, step s = .next t ∧ t.pending = none ∧ t.regs.busy = false ∧ t.regs.done = true ∧ t.regs.cmd = p.word := by
  obtain ⟨t, ht⟩ := exec_next (decodeWord p.word) s
  obtain ⟨pending, busy, done⟩ := exec_completes ht
  obtain ⟨word, _⟩ := hok.snapshot p hp
  exact ⟨t, (step_of_due hp hd).trans ht, pending, busy, done, (exec_inputs ht Regs.cmd).trans word.symm⟩

/-- Settles O9, by induction on the delay: the completion step is due, or one host transaction comes before it. -/
theorem commandCompletesWithinLatency : Obligations.CommandCompletesWithinLatency := by
  intro s p hok hp h
  induction hn : p.delay generalizing s p with
  | zero =>
    obtain ⟨t, hstep, hdone⟩ := step_completes hok hp (.inl hn)
    exact ⟨1, by omega, t, core_run_succ hstep 0, hdone⟩
  | succ n ih =>
    by_cases hs : s.script = []
    · obtain ⟨t, hstep, hdone⟩ := step_completes hok hp (.inr hs)
      exact ⟨1, by omega, t, core_run_succ hstep 0, hdone⟩
    · have hstep : step s = .next s.hostTurn := step_of_waiting hp (by omega) hs
      obtain ⟨hp', h'⟩ := hostTurn_pending hok hp h hs
      obtain ⟨k, hk, t, hrun, hdone⟩ :=
        ih s.hostTurn _ (pendingKeptByStep _ _ hok hstep) hp' h' (by simp only [hn]; omega)
      exact ⟨k + 1, by omega, t, (core_run_succ hstep k).trans hrun, hdone⟩

end Sys2Proof.Machine

/-! ## Errors, faults and the interrupt (60_exceptions.md)
No state stops the machine, an error is what STATUS and ERR_POS read after a command, and `irq` is 1 only with both IE
and DONE: each event of R117 fixes one of the two. -/

namespace Sys2Proof.Machine

/-! ### No fault and no refusal (R113, R116) -/

/-- Settles O8: a step is the completion of a command, which every command has, or the host's turn. -/
theorem stepNeverStops : Obligations.StepNeverStops := by
  intro s
  rw [step]
  cases s.engineWord with
  | some w => exact exec_next (decodeWord w) s
  | none => exact ⟨s.hostTurn, rfl⟩

/-! ### The codes of an error (R109, R110) -/

/-- Settles O41: the word STATUS reads, as a number, detail by detail. -/
theorem errorCodes : Obligations.ErrorCodes := by
  intro s pos slot m ho
  have read : ∀ (d : Detail) (w : Word), w.toNat = 0xA + 16 * d.kind.code + 256 * d.code →
      (s.afterError d pos slot m).regs.statusWord = w := fun d w hw =>
    BitVec.eq_of_toNat_eq ((statusWord_afterError ho d pos slot m).trans hw.symm)
  exact ⟨read .badOp _ rfl, read .baseRange _ rfl, read .digitRange _ rfl, read .digitCount _ rfl,
    read .valueOverflow _ rfl, read .blockLen _ rfl, read .groupLen _ rfl, read .indexRange _ rfl, read .seqRange _ rfl,
    read .unrecognized _ rfl, read .bankBPosition _ rfl, fun d => Regs.errPosWord_toNat _⟩

/-! ### The level of `irq` (R117) -/

section
variable {s : State}

theorem State.irq_iff : s.irq = true ↔ s.regs.ie = true ∧ s.regs.done = true := Bool.and_eq_true_iff

theorem State.irq_of_done (h : s.regs.done = true) : s.irq = s.regs.ie := by rw [State.irq, h, Bool.and_true]

theorem State.irq_of_ie (h : s.regs.ie = true) : s.irq = s.regs.done := by rw [State.irq, h, Bool.true_and]

theorem State.irq_of_done_false (h : s.regs.done = false) : s.irq = false := by rw [State.irq, h, Bool.and_false]

theorem State.irq_of_ie_false (h : s.regs.ie = false) : s.irq = false := by rw [State.irq, h, Bool.false_and]

/-- A completed command has DONE = 1 and leaves IE alone (R51, R103). -/
theorem irq_exec {i : Instr} {t : State} (h : exec i s = .next t) : t.irq = s.regs.ie := by
  obtain ⟨_, _, done⟩ := exec_completes h
  calc
    t.irq = t.regs.ie := State.irq_of_done done
    _ = s.regs.ie := exec_inputs h Regs.ie

/-- A write to CTRL with SRST set is a reset pulse (R22, R125). -/
theorem hostWrite_ctrl_srst {d : Word} (hr : s.rst = false) (hd : d.getLsbD 1 = true) :
    s.hostWrite (scriptAddr (.reg .ctrl)) d = s.resetPulse := by
  rw [hostWrite_ctrl hr, State.writeCtrl, if_pos hd]

end

/-- Settles O56: what each event makes of IE or of DONE. -/
theorem irqRisesAndFalls : Obligations.IrqRisesAndFalls := by
  intro s
  have ctrl : (0x00008#20 : HostAddr) = scriptAddr (.reg .ctrl) := rfl
  have status : (0x00010#20 : HostAddr) = scriptAddr (.reg .status) := rfl
  have cmd : (0x0000C#20 : HostAddr) = scriptAddr (.reg .cmd) := rfl
  rw [ctrl, status, cmd]
  refine ⟨State.irq_iff, fun i t h => irq_exec h, fun hr => ?setIe, fun hr => ?clearIe, fun hr => ?clearDone,
    fun hr hb w => ?acceptance, fun hr d hd => ?softReset, ?hardwareReset⟩
  case setIe => rw [hostWrite_ctrl_ie hr rfl]; exact State.irq_of_ie rfl
  case clearIe => rw [hostWrite_ctrl_ie hr rfl]; exact State.irq_of_ie_false rfl
  case clearDone => rw [hostWrite_status hr]; exact State.irq_of_done_false (Bool.and_false _)
  case acceptance => rw [hostWrite_cmd hr hb]; exact State.irq_of_done_false rfl
  case softReset => rw [hostWrite_ctrl_srst hr hd]; exact State.irq_of_done_false rfl
  case hardwareReset => exact State.irq_of_done_false rfl

end Sys2Proof.Machine

/-! ## Reset and hazards (70_reset_and_hazards.md)
A transaction sees of its address the register it leads to (`target_eq_reg_iff`), so what was proved at a register's own
address holds at every address of its word. What a reset leaves in the buffers is said command by command, as facts
about `abandonedMem`. -/

namespace Sys2Proof.Machine

/-! ### The cells of an abandoned command (R126) -/

/-- A reset with a command pending abandons that command. -/
theorem resetPulse_mem_of_pending {s : State} {p : Pending} (hp : s.pending = some p) :
    s.resetPulse.mem = abandonedMem s.params s.draws (decodeWord p.word) p.snapshot s.mem := by
  rw [State.resetPulse, hp]

/-- A reset with no command pending leaves the buffers alone (R124). -/
theorem resetPulse_mem_of_pending_none {s : State} (hp : s.pending = none) : s.resetPulse.mem = s.mem := by
  rw [State.resetPulse, hp]

section
variable {p : Config.Params} {o : Snapshot} (draw : Nat) (m : Memory)

theorem byte?_abandonedMem_tobase_of_outside {a : Nat}
    (h : ∀ j, j < 64 → a ≠ 0x100 + 4 * j ∧ a ≠ 0x100 + 4 * j + 1) :
    (abandonedMem p draw .tobase o m).byte? a = m.byte? a := by
  refine Memory.byte?_disturbCells_of_outside _ _ _ _ _ _ _ fun j hj => ?_
  have := h j hj
  simp only [digitAddr]
  omega

theorem byte?_abandonedMem_encseq_of_outside (hn : o.regs.seqLen.toNat ≤ p.bufBytes) {a : Nat}
    (h : a < 0x40000 ∨ 0x40000 + 16 * ((o.regs.seqLen.toNat + 3) / 4) ≤ a) :
    (abandonedMem p draw .encseq o m).byte? a = m.byte? a := by
  rw [abandonedMem, if_pos hn]
  refine Memory.byte?_disturbCells_of_outside _ _ _ _ _ _ _ fun j hj => ?_
  simp only [groupAddr]
  omega

theorem byte?_abandonedMem_decseq_of_outside (hg : o.regs.grpCnt.toNat ≤ p.groupEntries) {a : Nat}
    (h : a < 0x10000 ∨ 0x10000 + 4 * o.regs.grpCnt.toNat ≤ a) :
    (abandonedMem p draw .decseq o m).byte? a = m.byte? a := by
  rw [abandonedMem, if_pos hg]
  refine Memory.byte?_disturbCells_of_outside _ _ _ _ _ _ _ fun j hj => ?_
  simp only [byteAddr]
  omega

/-- ENCSEQ out of range ends in SEQ_RANGE and writes no cell (R98). -/
theorem abandonedMem_encseq_of_lt (hn : p.bufBytes < o.regs.seqLen.toNat) :
    abandonedMem p draw .encseq o m = m := if_neg (not_le.2 hn)

/-- DECSEQ out of range ends in SEQ_RANGE and writes no cell (R99). -/
theorem abandonedMem_decseq_of_lt (hg : p.groupEntries < o.regs.grpCnt.toNat) :
    abandonedMem p draw .decseq o m = m := if_neg (not_le.2 hg)

/-- The other commands write no cell of a buffer. -/
theorem abandonedMem_of_no_cells {i : Instr} (ht : i ≠ .tobase) (he : i ≠ .encseq) (hd : i ≠ .decseq) :
    abandonedMem p draw i o m = m := by
  cases i
  case tobase | encseq | decseq => contradiction
  all_goals rfl

end

/-- Settles O60: the buffers after the pulse are `abandonedMem` of the pending command. -/
theorem abandonedCommandCells : Obligations.AbandonedCommandCells := by
  intro s p i hp hi n g t
  have hmem : t.mem = abandonedMem s.params s.draws i p.snapshot s.mem := hi ▸ resetPulse_mem_of_pending hp
  rw [hmem]
  refine ⟨rfl, rfl, ?tobase, ?encseq, ?encseqRange, ?decseq, ?decseqRange, ?others⟩
  case tobase => rintro rfl a; exact byte?_abandonedMem_tobase_of_outside _ _
  case encseq => rintro rfl hn a; exact byte?_abandonedMem_encseq_of_outside _ _ hn
  case encseqRange => rintro rfl; exact abandonedMem_encseq_of_lt _ _
  case decseq => rintro rfl hg a; exact byte?_abandonedMem_decseq_of_outside _ _ hg
  case decseqRange => rintro rfl; exact abandonedMem_decseq_of_lt _ _
  case others => exact abandonedMem_of_no_cells _ _

/-! ### The state after reset (R124) -/

/-- Buffers of which no cell is written are as they should be (R47). -/
theorem State.BuffersOk.of_mem_nil {s : State} (h : s.mem = []) : s.BuffersOk where
  wf := by rw [h]; exact .nil
  populated x hx := by rw [h] at hx; cases hx
  whole := by
    rw [State.cellsWhole, h]
    exact ⟨fun _ _ _ _ => rfl, fun _ _ _ _ _ _ => rfl⟩

/-- At reset IDX_OUT holds the empty tuple and BLK_OUT the empty block (R28, R32). -/
theorem resultsOk_reset : State.reset.ResultsOk where
  tuple := ⟨[], rfl, by simp, rfl, rfl, rfl⟩
  block := ⟨by decide, fun i _ _ => by simp [State.reset, Regs.reset, lane]⟩

/-- Settles O10: every cell is unwritten, nothing is pending, no error is recorded, and the results are empty. -/
theorem resetMeetsInvariants : Obligations.ResetMeetsInvariants :=
  ⟨.of_mem_nil rfl, .of_reset rfl rfl, ⟨rfl, rfl, fun _ => ⟨rfl, rfl⟩⟩, resultsOk_reset⟩

/-! ### A transaction at any address of a register's word (R42) -/

theorem target_eq_reg_iff {p : Config.Params} {a : HostAddr} {n : RegName} :
    target p a = .reg n ↔ wordAddr a = regOffset n :=
  ⟨wordAddr_of_target_reg, fun h => by rw [target_eq, h, targetAt_regOffset]⟩

section
variable {s : State} {a : HostAddr} {n : RegName}

theorem target_eq_scriptAddr (p : Config.Params) (h : wordAddr a = regOffset n) :
    target p a = target p (scriptAddr (.reg n)) := by
  rw [target_eq_reg_iff.2 h, target_scriptAddr_reg]

theorem hostWrite_eq_scriptAddr (d : Word) (h : wordAddr a = regOffset n) :
    s.hostWrite a d = s.hostWrite (scriptAddr (.reg n)) d := by
  rw [State.hostWrite, State.hostWrite, target_eq_scriptAddr _ h]

theorem hostRead_eq_scriptAddr (h : wordAddr a = regOffset n) :
    s.hostRead a = s.hostRead (scriptAddr (.reg n)) := by
  rw [State.hostRead, State.hostRead, target_eq_scriptAddr _ h]

end

/-! ### While busy (R128, R129) -/

section
variable {s : State} {a : HostAddr}

/-- The five registers that read while busy are the first five words of the page (R19, R129). -/
theorem readableBusy_of_lt {p : Config.Params} (h : 0x010 < wordAddr a) : readableBusy (target p a) = false := by
  cases ht : target p a with
  | digit | bytes | group | reserved => rfl
  | reg n =>
    rw [wordAddr_of_target_reg ht] at h
    revert h
    cases n <;> decide

/-- While busy, a word that is none of the five reads a free value (R129). -/
theorem hostRead_busy (hr : s.rst = false) (hb : s.regs.busy = true) (h : 0x010 < wordAddr a) :
    s.hostRead a = Config.freeRead s.draws := by
  simp [State.hostRead, hr, hb, readableBusy_of_lt h]

end

/-- Settles O53: CTRL and STATUS are the only targets whose write is carried out. -/
theorem busyWritesDropped : Obligations.BusyWritesDropped := by
  intro s a d hr hb
  refine ⟨fun hc hs => ?dropped, fun ha hd => ?ie, fun ha hd => ?srst, fun ha => ?status⟩
  case dropped => exact hostWrite_busy hr hb (mt target_eq_reg_iff.1 hc) (mt target_eq_reg_iff.1 hs)
  case ie => exact (hostWrite_eq_scriptAddr (n := .ctrl) d ha).trans (hostWrite_ctrl_ie hr hd)
  case srst => exact (hostWrite_eq_scriptAddr (n := .ctrl) d ha).trans (hostWrite_ctrl_srst hr hd)
  case status => exact (hostWrite_eq_scriptAddr (n := .status) d ha).trans (hostWrite_status hr)

/-- Settles O54: the five registers are readable while busy, and their words are known as numbers. -/
theorem busyReads : Obligations.BusyReads := by
  intro s a hr hb
  have rd (n : RegName) (hn : readableBusy (.reg n) = true) (ha : wordAddr a = regOffset n) :
      s.hostRead a = s.readReg n := (hostRead_eq_scriptAddr ha).trans (hostRead_reg hr (.inr hn))
  refine ⟨rd .id rfl, fun ha => ?param, fun ha => ?ctrl, rd .cmd rfl, fun ha => ?status,
    fun ha => ⟨hostRead_busy hr hb ha, rfl⟩⟩
  case param => rw [rd .param rfl ha]; exact paramWord_toNat s.params
  case ctrl => rw [rd .ctrl rfl ha]; exact s.regs.ctrlWord_toNat
  case status =>
    rw [rd .status rfl ha]
    refine s.regs.statusWord_toNat.trans ?_
    rw [hb, Bool.toNat_true]

/-! ### Hardware and soft reset (R124, R125) -/

theorem hostWrite_of_rst {s : State} (hr : s.rst = true) (a : HostAddr) (d : Word) : s.hostWrite a d = s := by
  rw [State.hostWrite, if_pos hr]

theorem hostRead_of_rst {s : State} (hr : s.rst = true) (a : HostAddr) :
    s.hostRead a = Config.freeRead s.draws := by
  rw [State.hostRead, if_pos hr]

/-- Settles O58: asserting `rst` is a reset pulse, and while it is asserted no transaction reaches a target. -/
theorem hardwareReset : Obligations.HardwareReset := fun _ =>
  ⟨rfl, rfl, rfl, resetPulse_mem_of_pending_none, fun hr a d => ⟨hostWrite_of_rst hr a d, hostRead_of_rst hr a⟩, rfl⟩

/-- Settles O59: the write is a reset pulse, which asserting `rst` is too, and the pulse leaves `rst` as it was. -/
theorem softReset : Obligations.SoftReset := by
  intro s a d hr ha hd
  have hw : s.hostWrite a d = s.resetPulse :=
    (hostWrite_eq_scriptAddr (n := .ctrl) d ha).trans (hostWrite_ctrl_srst hr hd)
  have hrst : s.resetPulse.rst = false := hr
  rw [hw]
  exact ⟨rfl, hrst, rfl, rfl, hostRead_reg (n := .ctrl) hrst (.inr rfl)⟩

end Sys2Proof.Machine
